-- ==== Sys2Proof/Word.lean ====
section
/-! DEFINITION. The words of the Tiny RISC-V machine: the widths 00_scope.md R5 and 10_state.md R10, R16 give. -/

namespace Sys2Proof

/-- Every value an instruction reads or writes is 32 bits (R5, R10); so is the pc (R13, D15). -/
abbrev Word := BitVec 32

/-- The smallest addressable unit of memory (R23). -/
abbrev Byte := BitVec 8

/-- A register specifier: the unsigned 5-bit number i of `x[i]` (R10, R54). -/
abbrev RegNum := BitVec 5

/-- A CSR specifier: an unsigned 12-bit number (R16, R61). -/
abbrev CsrNum := BitVec 12

end Sys2Proof
end

