-- ==== Sys2Proof/Config.lean ====
section
/-! DEFINITION. What an implementation or platform fixes (00_scope.md §4): the parameters' types, and the
value each one has in `State.reset`. The parameters themselves stand in State, so that a statement about
every state holds for every value of them. -/

namespace Sys2Proof

/-- The version of the ISA that is in force (R2, D1). -/
inductive IsaVersion where
  | tinyRV1
  | tinyRV2
deriving DecidableEq, Repr

/-- A run of instruction words in memory: the bytes from `4 * firstWord` up to, not including,
`4 * (firstWord + words)`. DESIGN CHOICE (log 12): the program text is given in whole aligned words. -/
structure TextRange where
  firstWord : Nat
  words     : Nat
deriving DecidableEq, Repr

/-- Whether a store to an address that is later fetched has a meaning (R47, D23). Under `refuse` the
program text is the list of its ranges. -/
inductive SmcPolicy where
  | coherent
  | refuse (text : List TextRange)
deriving DecidableEq, Repr

/-- 1 MB: byte addresses 0x00000000 to 0x000fffff (R23, R36). -/
def Config.memoryBytes : Nat := 0x100000

/-- R13, R25, R200: an address at which execution starts, not a word that holds one. -/
def Config.resetVector : Word := 0x00000200#32

/-- D1: the default of ISA_VERSION (log 1). -/
def Config.resetVersion : IsaVersion := .tinyRV2

/-- DESIGN CHOICE (log 2), unsafe: the spec gives x1..x31 no reset value (R25, D17). -/
def Config.resetRegister : Word := 0#32

/-- DESIGN CHOICE (log 4), unsafe: the spec gives stats_en no reset value (R25, D16). -/
def Config.resetStatsEn : Word := 0#32

/-- D26, R44: a single-core model has CORE_ID = 0 (log 6). -/
def Config.resetCoreId : Word := 0#32

/-- R21, R44, D26: a single-core model has NUM_CORES = 1 (log 6). -/
def Config.resetNumCores : Word := 1#32

/-- DESIGN CHOICE (log 8), unsafe: the spec does not say whether proc2mngr is ready at reset (N10). -/
def Config.resetProc2mngrReady : Bool := true

/-- DESIGN CHOICE (log 11), unsafe on hardware that fetches ahead of a store: R47's derived reading. -/
def Config.resetSmc : SmcPolicy := .coherent

/-- DESIGN CHOICE (log 5), unsafe: what a byte reads as that neither MEM_IMAGE nor a store has defined
(D18, S8: any value). -/
def Config.unlistedByte : Byte := 0#8

end Sys2Proof
end

