-- ==== Sys2Proof/Syntax.lean ====
section
/-! DEFINITION. The instructions: one constructor per row of spec/opcode_table.json, in the table's order.
Register operands come in the order of the assembly line (30_encoding.md R73); an immediate is the field the
assembly writes: the signed 12-bit value of the I- and S-types, the even byte offset of a branch (13 bits) or
of JAL (21 bits), the 20-bit field of LUI and AUIPC, the unsigned shift amount, the unsigned CSR number. -/

namespace Sys2Proof

inductive Instr where
  -- control/status registers (41_csr_instructions.md)
  | csrr  (rd : RegNum) (csr : CsrNum)
  | csrw  (csr : CsrNum) (rs1 : RegNum)
  -- register-register arithmetic (42_reg_reg_arithmetic.md)
  | add   (rd rs1 rs2 : RegNum)
  | sub   (rd rs1 rs2 : RegNum)
  | and   (rd rs1 rs2 : RegNum)
  | or    (rd rs1 rs2 : RegNum)
  | xor   (rd rs1 rs2 : RegNum)
  | slt   (rd rs1 rs2 : RegNum)
  | sltu  (rd rs1 rs2 : RegNum)
  | sra   (rd rs1 rs2 : RegNum)
  | srl   (rd rs1 rs2 : RegNum)
  | sll   (rd rs1 rs2 : RegNum)
  | mul   (rd rs1 rs2 : RegNum)
  -- register-immediate arithmetic (43_reg_imm_arithmetic.md)
  | addi  (rd rs1 : RegNum) (imm : BitVec 12)
  | andi  (rd rs1 : RegNum) (imm : BitVec 12)
  | ori   (rd rs1 : RegNum) (imm : BitVec 12)
  | xori  (rd rs1 : RegNum) (imm : BitVec 12)
  | slti  (rd rs1 : RegNum) (imm : BitVec 12)
  | sltiu (rd rs1 : RegNum) (imm : BitVec 12)
  | srai  (rd rs1 : RegNum) (shamt : BitVec 5)
  | srli  (rd rs1 : RegNum) (shamt : BitVec 5)
  | slli  (rd rs1 : RegNum) (shamt : BitVec 5)
  | lui   (rd : RegNum) (imm : BitVec 20)
  | auipc (rd : RegNum) (imm : BitVec 20)
  -- memory (44_memory_instructions.md)
  | lw    (rd rs1 : RegNum) (imm : BitVec 12)
  | sw    (rs2 rs1 : RegNum) (imm : BitVec 12)
  -- jumps (45_jumps.md); JR is a real instruction of TinyRV1 only (R141, R161)
  | jal   (rd : RegNum) (offset : BitVec 21)
  | jr    (rs1 : RegNum)
  | jalr  (rd rs1 : RegNum) (imm : BitVec 12)
  -- branches (46_branches.md)
  | beq   (rs1 rs2 : RegNum) (offset : BitVec 13)
  | bne   (rs1 rs2 : RegNum) (offset : BitVec 13)
  | blt   (rs1 rs2 : RegNum) (offset : BitVec 13)
  | bge   (rs1 rs2 : RegNum) (offset : BitVec 13)
  | bltu  (rs1 rs2 : RegNum) (offset : BitVec 13)
  | bgeu  (rs1 rs2 : RegNum) (offset : BitVec 13)
deriving DecidableEq, Repr

/-- The five CSRs (10_state.md R16). -/
inductive Csr where
  | proc2mngr
  | mngr2proc
  | coreid
  | numcores
  | statsEn
deriving DecidableEq, Repr

end Sys2Proof
end

