-- ==== Sys2Proof/WellFormed.lean ====
section
/-! DEFINITION. Which terms of `Instr` have an encoding: bit 0 of a B- and of a J-immediate is always zero
(30_encoding.md R57, R59); every other field admits every value of its width. -/

namespace Sys2Proof

/-- R57, R59, R74: a branch or JAL offset is even. -/
def evenOffset {n : Nat} (offset : BitVec n) : Bool := !offset.getLsbD 0

/-- The term has an encoding (R57, R59). The CSR operand is any 12-bit number: a number that names no CSR
is an instruction, and a fault when executed (R17). -/
def Instr.wellFormed : Instr → Bool
  | .csrr _ _ | .csrw _ _ => true
  | .add _ _ _ | .sub _ _ _ | .and _ _ _ | .or _ _ _ | .xor _ _ _ | .slt _ _ _ | .sltu _ _ _
  | .sra _ _ _ | .srl _ _ _ | .sll _ _ _ | .mul _ _ _ => true
  | .addi _ _ _ | .andi _ _ _ | .ori _ _ _ | .xori _ _ _ | .slti _ _ _ | .sltiu _ _ _ => true
  | .srai _ _ _ | .srli _ _ _ | .slli _ _ _ | .lui _ _ | .auipc _ _ => true
  | .lw _ _ _ | .sw _ _ _ | .jr _ | .jalr _ _ _ => true
  | .jal _ offset => evenOffset offset
  | .beq _ _ offset | .bne _ _ offset | .blt _ _ offset | .bge _ _ offset
  | .bltu _ _ offset | .bgeu _ _ offset => evenOffset offset

/-- The instructions each version has as its own (R1, R2). JR is TinyRV1's; TinyRV2 spells it as a JALR
(R141, R161). -/
def Instr.inVersion : IsaVersion → Instr → Bool
  | .tinyRV1, .add _ _ _ | .tinyRV1, .addi _ _ _ | .tinyRV1, .mul _ _ _ | .tinyRV1, .lw _ _ _
  | .tinyRV1, .sw _ _ _ | .tinyRV1, .jal _ _ | .tinyRV1, .jr _ | .tinyRV1, .bne _ _ _ => true
  | .tinyRV1, _ => false
  | .tinyRV2, .jr _ => false
  | .tinyRV2, _ => true

end Sys2Proof
end

