-- ==== Sys2Proof/Decode.lean ====
section
/-! DEFINITION. From words to instructions and back (30_encoding.md). The decoder is the table of R63: a word
is the instruction of a row when `word & mask = match` (R62); a word that matches no row is rejected with the
word itself (R70). The encoder lays the same fields out by the formats R51 to R54. -/

namespace Sys2Proof

/-! Fields (R54) and immediates (R55 to R61). -/

def opcodeOf (w : Word) : BitVec 7 := w.extractLsb' 0 7
def rdOf (w : Word) : RegNum := w.extractLsb' 7 5
def funct3Of (w : Word) : BitVec 3 := w.extractLsb' 12 3
def rs1Of (w : Word) : RegNum := w.extractLsb' 15 5
def rs2Of (w : Word) : RegNum := w.extractLsb' 20 5
def funct7Of (w : Word) : BitVec 7 := w.extractLsb' 25 7

/-- R55: the twelve bits of the I-immediate. -/
def immIOf (w : Word) : BitVec 12 := w.extractLsb' 20 12

/-- R56: the twelve bits of the S-immediate, `inst[31:25] ++ inst[11:7]`. -/
def immSOf (w : Word) : BitVec 12 := w.extractLsb' 25 7 ++ w.extractLsb' 7 5

/-- R57: the thirteen bits of the B-immediate; bit 11 is inst[7] and bit 0 is zero. -/
def immBOf (w : Word) : BitVec 13 :=
  w.extractLsb' 31 1 ++ w.extractLsb' 7 1 ++ w.extractLsb' 25 6 ++ w.extractLsb' 8 4 ++ 0#1

/-- R58: the twenty bits of the U-immediate. -/
def immUOf (w : Word) : BitVec 20 := w.extractLsb' 12 20

/-- R59: the twenty-one bits of the J-immediate; bit 11 is inst[20] and bit 0 is zero. -/
def immJOf (w : Word) : BitVec 21 :=
  w.extractLsb' 31 1 ++ w.extractLsb' 12 8 ++ w.extractLsb' 20 1 ++ w.extractLsb' 25 6 ++
    w.extractLsb' 21 4 ++ 0#1

/-- R60: the shift amount of SLLI, SRLI, SRAI. -/
def shamtOf (w : Word) : BitVec 5 := w.extractLsb' 20 5

/-- R61: the CSR number. -/
def csrOf (w : Word) : CsrNum := w.extractLsb' 20 12

/-! The table of R63. -/

/-- One row: the bits that are fixed (`mask`), their values (`pattern`, the table's "match"), the versions
whose decoder has the row, and the instruction a matching word stands for. -/
structure OpcodeRow where
  mnemonic : String
  pattern  : Word
  mask     : Word
  inRV1    : Bool
  inRV2    : Bool
  build    : Word → Instr

def OpcodeRow.inVersion (r : OpcodeRow) : IsaVersion → Bool
  | .tinyRV1 => r.inRV1
  | .tinyRV2 => r.inRV2

/-- R62: `inst & mask = match`. -/
def OpcodeRow.matchesWord (r : OpcodeRow) (w : Word) : Bool := w &&& r.mask == r.pattern

def csrRows : List OpcodeRow := [
  ⟨"CSRR", 0x00002073#32, 0x000ff07f#32, false, true, fun w => .csrr (rdOf w) (csrOf w)⟩,
  ⟨"CSRW", 0x00001073#32, 0x00007fff#32, false, true, fun w => .csrw (csrOf w) (rs1Of w)⟩]

def regRegRows : List OpcodeRow := [
  ⟨"ADD",  0x00000033#32, 0xfe00707f#32, true,  true, fun w => .add (rdOf w) (rs1Of w) (rs2Of w)⟩,
  ⟨"SUB",  0x40000033#32, 0xfe00707f#32, false, true, fun w => .sub (rdOf w) (rs1Of w) (rs2Of w)⟩,
  ⟨"AND",  0x00007033#32, 0xfe00707f#32, false, true, fun w => .and (rdOf w) (rs1Of w) (rs2Of w)⟩,
  ⟨"OR",   0x00006033#32, 0xfe00707f#32, false, true, fun w => .or (rdOf w) (rs1Of w) (rs2Of w)⟩,
  ⟨"XOR",  0x00004033#32, 0xfe00707f#32, false, true, fun w => .xor (rdOf w) (rs1Of w) (rs2Of w)⟩,
  ⟨"SLT",  0x00002033#32, 0xfe00707f#32, false, true, fun w => .slt (rdOf w) (rs1Of w) (rs2Of w)⟩,
  ⟨"SLTU", 0x00003033#32, 0xfe00707f#32, false, true, fun w => .sltu (rdOf w) (rs1Of w) (rs2Of w)⟩,
  ⟨"SRA",  0x40005033#32, 0xfe00707f#32, false, true, fun w => .sra (rdOf w) (rs1Of w) (rs2Of w)⟩,
  ⟨"SRL",  0x00005033#32, 0xfe00707f#32, false, true, fun w => .srl (rdOf w) (rs1Of w) (rs2Of w)⟩,
  ⟨"SLL",  0x00001033#32, 0xfe00707f#32, false, true, fun w => .sll (rdOf w) (rs1Of w) (rs2Of w)⟩,
  ⟨"MUL",  0x02000033#32, 0xfe00707f#32, true,  true, fun w => .mul (rdOf w) (rs1Of w) (rs2Of w)⟩]

def regImmRows : List OpcodeRow := [
  ⟨"ADDI",  0x00000013#32, 0x0000707f#32, true,  true, fun w => .addi (rdOf w) (rs1Of w) (immIOf w)⟩,
  ⟨"ANDI",  0x00007013#32, 0x0000707f#32, false, true, fun w => .andi (rdOf w) (rs1Of w) (immIOf w)⟩,
  ⟨"ORI",   0x00006013#32, 0x0000707f#32, false, true, fun w => .ori (rdOf w) (rs1Of w) (immIOf w)⟩,
  ⟨"XORI",  0x00004013#32, 0x0000707f#32, false, true, fun w => .xori (rdOf w) (rs1Of w) (immIOf w)⟩,
  ⟨"SLTI",  0x00002013#32, 0x0000707f#32, false, true, fun w => .slti (rdOf w) (rs1Of w) (immIOf w)⟩,
  ⟨"SLTIU", 0x00003013#32, 0x0000707f#32, false, true, fun w => .sltiu (rdOf w) (rs1Of w) (immIOf w)⟩,
  ⟨"SRAI",  0x40005013#32, 0xfe00707f#32, false, true, fun w => .srai (rdOf w) (rs1Of w) (shamtOf w)⟩,
  ⟨"SRLI",  0x00005013#32, 0xfe00707f#32, false, true, fun w => .srli (rdOf w) (rs1Of w) (shamtOf w)⟩,
  ⟨"SLLI",  0x00001013#32, 0xfe00707f#32, false, true, fun w => .slli (rdOf w) (rs1Of w) (shamtOf w)⟩,
  ⟨"LUI",   0x00000037#32, 0x0000007f#32, false, true, fun w => .lui (rdOf w) (immUOf w)⟩,
  ⟨"AUIPC", 0x00000017#32, 0x0000007f#32, false, true, fun w => .auipc (rdOf w) (immUOf w)⟩]

def memoryRows : List OpcodeRow := [
  ⟨"LW", 0x00002003#32, 0x0000707f#32, true, true, fun w => .lw (rdOf w) (rs1Of w) (immIOf w)⟩,
  ⟨"SW", 0x00002023#32, 0x0000707f#32, true, true, fun w => .sw (rs2Of w) (rs1Of w) (immSOf w)⟩]

/-- The JR row belongs to the TinyRV1 decoder only; in TinyRV2 its words are JALR's (R62, R141; log 13). -/
def jumpRows : List OpcodeRow := [
  ⟨"JAL",  0x0000006f#32, 0x0000007f#32, true,  true,  fun w => .jal (rdOf w) (immJOf w)⟩,
  ⟨"JR",   0x00000067#32, 0xfff07fff#32, true,  false, fun w => .jr (rs1Of w)⟩,
  ⟨"JALR", 0x00000067#32, 0x0000707f#32, false, true,  fun w => .jalr (rdOf w) (rs1Of w) (immIOf w)⟩]

def branchRows : List OpcodeRow := [
  ⟨"BEQ",  0x00000063#32, 0x0000707f#32, false, true, fun w => .beq (rs1Of w) (rs2Of w) (immBOf w)⟩,
  ⟨"BNE",  0x00001063#32, 0x0000707f#32, true,  true, fun w => .bne (rs1Of w) (rs2Of w) (immBOf w)⟩,
  ⟨"BLT",  0x00004063#32, 0x0000707f#32, false, true, fun w => .blt (rs1Of w) (rs2Of w) (immBOf w)⟩,
  ⟨"BGE",  0x00005063#32, 0x0000707f#32, false, true, fun w => .bge (rs1Of w) (rs2Of w) (immBOf w)⟩,
  ⟨"BLTU", 0x00006063#32, 0x0000707f#32, false, true, fun w => .bltu (rs1Of w) (rs2Of w) (immBOf w)⟩,
  ⟨"BGEU", 0x00007063#32, 0x0000707f#32, false, true, fun w => .bgeu (rs1Of w) (rs2Of w) (immBOf w)⟩]

/-- R63, in its order. -/
def opcodeTable : List OpcodeRow :=
  csrRows ++ regRegRows ++ regImmRows ++ memoryRows ++ jumpRows ++ branchRows

/-- Why bytes are no instruction. -/
inductive DecodeReject where
  /-- The word matches no row of the version's table (R70). -/
  | notAnInstruction (word : Word)
  /-- Fewer than the four bytes every instruction has (R50). -/
  | tooFewBytes (present : Nat)
deriving DecidableEq, Repr

/-- R62, R70: the row whose fixed bits the word has, in the version in force. -/
def decodeWord (v : IsaVersion) (w : Word) : Except DecodeReject Instr :=
  match opcodeTable.find? (fun r => r.inVersion v && r.matchesWord w) with
  | some r => .ok (r.build w)
  | none   => .error (.notAnInstruction w)

/-- R31, R33: the byte at the lowest address is the least significant. -/
def wordOfBytes (b0 b1 b2 b3 : Byte) : Word := b3 ++ b2 ++ b1 ++ b0

/-- R31: the byte of a word at offset `k` (0 to 3) from the word's address. -/
def byteOfWord (w : Word) (k : Nat) : Byte := w.extractLsb' (8 * k) 8

/-- R33, R50: the instruction in the first four bytes, and the bytes after it. -/
def decodeBytes (v : IsaVersion) : List Byte → Except DecodeReject (Instr × List Byte)
  | b0 :: b1 :: b2 :: b3 :: rest =>
    match decodeWord v (wordOfBytes b0 b1 b2 b3) with
    | .ok i    => .ok (i, rest)
    | .error e => .error e
  | bytes => .error (.tooFewBytes bytes.length)

/-- R31, R33: a word as memory holds it, lowest address first. -/
def bytesOfWord (w : Word) : List Byte :=
  [byteOfWord w 0, byteOfWord w 1, byteOfWord w 2, byteOfWord w 3]

/-- The instruction the decoder of the version in force at reset reads from the bits `w` of a row of
spec/opcode_table.json, laid out as memory holds them; bits from `nbits` up are zero. -/
def decodeTableWord (nbits w : Nat) : Option Instr :=
  match decodeBytes Config.resetVersion (bytesOfWord (BitVec.ofNat 32 (w % 2 ^ nbits))) with
  | .ok (i, _) => some i
  | .error _   => none

/-! The encoder (R51 to R54, R57, R59 to R61, R71). -/

/-- R51. The immediate shifts have the shift amount in the place of rs2 (R60). -/
def rWord (funct7 : BitVec 7) (rs2 rs1 : RegNum) (funct3 : BitVec 3) (rd : RegNum) (opcode : BitVec 7) : Word :=
  funct7 ++ rs2 ++ rs1 ++ funct3 ++ rd ++ opcode

/-- R52; also the layout of CSRR and CSRW (R61). -/
def iWord (imm : BitVec 12) (rs1 : RegNum) (funct3 : BitVec 3) (rd : RegNum) (opcode : BitVec 7) : Word :=
  imm ++ rs1 ++ funct3 ++ rd ++ opcode

/-- R53, R56. -/
def sWord (imm : BitVec 12) (rs2 rs1 : RegNum) (funct3 : BitVec 3) (opcode : BitVec 7) : Word :=
  imm.extractLsb' 5 7 ++ rs2 ++ rs1 ++ funct3 ++ imm.extractLsb' 0 5 ++ opcode

/-- R53, R57: the S-type layout with the B-immediate; bit 0 of the offset has no place in the word. -/
def bWord (offset : BitVec 13) (rs2 rs1 : RegNum) (funct3 : BitVec 3) (opcode : BitVec 7) : Word :=
  offset.extractLsb' 12 1 ++ offset.extractLsb' 5 6 ++ rs2 ++ rs1 ++ funct3 ++
    offset.extractLsb' 1 4 ++ offset.extractLsb' 11 1 ++ opcode

/-- R54, R58. -/
def uWord (imm : BitVec 20) (rd : RegNum) (opcode : BitVec 7) : Word :=
  imm ++ rd ++ opcode

/-- R54, R59: the U-type layout with the J-immediate; bit 0 of the offset has no place in the word. -/
def jWord (offset : BitVec 21) (rd : RegNum) (opcode : BitVec 7) : Word :=
  offset.extractLsb' 20 1 ++ offset.extractLsb' 1 10 ++ offset.extractLsb' 11 1 ++
    offset.extractLsb' 12 8 ++ rd ++ opcode

/-- R63: the word of an instruction. -/
def encode : Instr → Word
  | .csrr rd csr      => iWord csr 0b00000#5 0b010#3 rd 0b1110011#7
  | .csrw csr rs1     => iWord csr rs1 0b001#3 0b00000#5 0b1110011#7
  | .add rd rs1 rs2   => rWord 0b0000000#7 rs2 rs1 0b000#3 rd 0b0110011#7
  | .sub rd rs1 rs2   => rWord 0b0100000#7 rs2 rs1 0b000#3 rd 0b0110011#7
  | .and rd rs1 rs2   => rWord 0b0000000#7 rs2 rs1 0b111#3 rd 0b0110011#7
  | .or rd rs1 rs2    => rWord 0b0000000#7 rs2 rs1 0b110#3 rd 0b0110011#7
  | .xor rd rs1 rs2   => rWord 0b0000000#7 rs2 rs1 0b100#3 rd 0b0110011#7
  | .slt rd rs1 rs2   => rWord 0b0000000#7 rs2 rs1 0b010#3 rd 0b0110011#7
  | .sltu rd rs1 rs2  => rWord 0b0000000#7 rs2 rs1 0b011#3 rd 0b0110011#7
  | .sra rd rs1 rs2   => rWord 0b0100000#7 rs2 rs1 0b101#3 rd 0b0110011#7
  | .srl rd rs1 rs2   => rWord 0b0000000#7 rs2 rs1 0b101#3 rd 0b0110011#7
  | .sll rd rs1 rs2   => rWord 0b0000000#7 rs2 rs1 0b001#3 rd 0b0110011#7
  | .mul rd rs1 rs2   => rWord 0b0000001#7 rs2 rs1 0b000#3 rd 0b0110011#7
  | .addi rd rs1 imm  => iWord imm rs1 0b000#3 rd 0b0010011#7
  | .andi rd rs1 imm  => iWord imm rs1 0b111#3 rd 0b0010011#7
  | .ori rd rs1 imm   => iWord imm rs1 0b110#3 rd 0b0010011#7
  | .xori rd rs1 imm  => iWord imm rs1 0b100#3 rd 0b0010011#7
  | .slti rd rs1 imm  => iWord imm rs1 0b010#3 rd 0b0010011#7
  | .sltiu rd rs1 imm => iWord imm rs1 0b011#3 rd 0b0010011#7
  | .srai rd rs1 sh   => rWord 0b0100000#7 sh rs1 0b101#3 rd 0b0010011#7
  | .srli rd rs1 sh   => rWord 0b0000000#7 sh rs1 0b101#3 rd 0b0010011#7
  | .slli rd rs1 sh   => rWord 0b0000000#7 sh rs1 0b001#3 rd 0b0010011#7
  | .lui rd imm       => uWord imm rd 0b0110111#7
  | .auipc rd imm     => uWord imm rd 0b0010111#7
  | .lw rd rs1 imm    => iWord imm rs1 0b010#3 rd 0b0000011#7
  | .sw rs2 rs1 imm   => sWord imm rs2 rs1 0b010#3 0b0100011#7
  | .jal rd off       => jWord off rd 0b1101111#7
  | .jr rs1           => iWord 0x000#12 rs1 0b000#3 0b00000#5 0b1100111#7
  | .jalr rd rs1 imm  => iWord imm rs1 0b000#3 rd 0b1100111#7
  | .beq rs1 rs2 off  => bWord off rs2 rs1 0b000#3 0b1100011#7
  | .bne rs1 rs2 off  => bWord off rs2 rs1 0b001#3 0b1100011#7
  | .blt rs1 rs2 off  => bWord off rs2 rs1 0b100#3 0b1100011#7
  | .bge rs1 rs2 off  => bWord off rs2 rs1 0b101#3 0b1100011#7
  | .bltu rs1 rs2 off => bWord off rs2 rs1 0b110#3 0b1100011#7
  | .bgeu rs1 rs2 off => bWord off rs2 rs1 0b111#3 0b1100011#7

end Sys2Proof
end

