-- ==== Sys2Proof/Machine/State.lean ====
section
/-! DEFINITION. The machine's state (10_state.md), the reasons a step can stop (60_exceptions.md R171), and
the state right after reset (10_state.md R25, 70_reset_and_hazards.md R202). -/

namespace Sys2Proof.Machine

/-- Memory `M` (R23): (address, byte) pairs with rising addresses, none equal to what an unlisted address
reads as. `Memory.wf` says so. -/
abbrev Memory := List Host.Cell

/-- Addresses rise strictly from `lo`, lie inside the address space, and no listed byte is the one an
unlisted address reads as. -/
def Memory.risesFrom : Nat → Memory → Bool
  | _, [] => true
  | lo, (a, b) :: rest =>
    decide (lo ≤ a) && decide (a < Config.memoryBytes) && (b != Config.unlistedByte) &&
      Memory.risesFrom (a + 1) rest

/-- The canonical form: equal memories are equal lists. -/
def Memory.wf (m : Memory) : Bool := Memory.risesFrom 0 m

/-- What the manager does between two steps of the core (R183, D19, D20): it enqueues words on mngr2proc,
dequeues words from proc2mngr, and leaves proc2mngr ready or not. -/
structure ManagerTurn where
  enqueue : List Word
  dequeue : Nat
  ready   : Bool
deriving DecidableEq, Repr

/-- Which way a CSR is accessed (R171). -/
inductive CsrDir where
  | read
  | write
deriving DecidableEq, Repr

/-- The model faults of R171. Each ends the run and changes no state (R172, D9). -/
inductive Fault where
  /-- The fetch, when pc is not a multiple of four (R35, D8). Safe: the spec gives no effect. -/
  | misalignedFetch (pc : Word)
  /-- The fetch, LW or SW, for an address above 0x000fffff (R36, D7). Safe: the address does not exist. -/
  | addressOutOfRange (address : Word)
  /-- The fetch of a word that matches no row of the version's table (R70, D2, D3). Safe: the spec gives no
  effect. -/
  | illegalInstruction (word : Word) (pc : Word)
  /-- CSRR or CSRW with a number that names no CSR (R17, D4). Safe: there is no such register. -/
  | illegalCsr (number : CsrNum)
  /-- CSRR of proc2mngr, CSRW of mngr2proc, numcores or coreid (R18, R19, R21, R22, D5). Safe: the source
  calls the access undefined. -/
  | undefinedCsrAccess (number : CsrNum) (dir : CsrDir)
  /-- LW or SW with an effective address that is not a multiple of four (R34, D6). Safe: the spec gives no
  effect. -/
  | misalignedData (address : Word)
deriving DecidableEq, Repr

/-- Refusals of the model, which are no claim about the hardware. -/
inductive Refusal where
  /-- An instruction that has no meaning yet; raised by `exec`'s arm alone. Safe. -/
  | notModelled (mnemonic : String)
  /-- SW into the program text, only while SMC_POLICY is `refuse` (R47, R171, D23). Safe. -/
  | storeToText (address : Word)
deriving DecidableEq, Repr

/-- All the state of one core, its two FIFOs, the machine's parameters and the manager's future turns. -/
structure State where
  /-- ISA_VERSION (R2); no step changes it. -/
  version  : IsaVersion
  /-- SMC_POLICY (R47); no step changes it. -/
  smc      : SmcPolicy
  /-- CSR coreid (R22), constant. -/
  coreId   : Word
  /-- CSR numcores (R21), constant. -/
  numCores : Word
  /-- x1 to x31 (R10); x0 is no storage (R11). -/
  regs     : Vector Word 31
  /-- The address of the instruction being executed (R13). -/
  pc       : Word
  /-- CSR stats_en (R20): 32 bits of plain storage. -/
  statsEn  : Word
  /-- The FIFO behind CSR mngr2proc, head first (R18). -/
  m2p      : List Word
  /-- The FIFO behind CSR proc2mngr, head first: enqueued and not yet taken (R19). -/
  p2m      : List Word
  /-- Whether proc2mngr accepts a word (R19, D20). -/
  p2mReady : Bool
  /-- Every word ever enqueued on proc2mngr, oldest first: the core's output (R19). -/
  sent     : List Word
  /-- The 1 MB of memory (R23). -/
  mem      : Memory
  /-- The model's own field (log 9): the manager's turns still to come, one after each step. -/
  manager  : List ManagerTurn
deriving DecidableEq, Repr

/-- R25, R202. The values the spec leaves open are Config's, each with its log entry. -/
def State.reset : State where
  version  := Config.resetVersion
  smc      := Config.resetSmc
  coreId   := Config.resetCoreId
  numCores := Config.resetNumCores
  regs     := Vector.replicate 31 Config.resetRegister
  pc       := Config.resetVector
  statsEn  := Config.resetStatsEn
  m2p      := []
  p2m      := []
  p2mReady := Config.resetProc2mngrReady
  sent     := []
  mem      := []
  manager  := []

/-- What reading a CSR comes to (10_state.md §5). -/
inductive CsrReadResult where
  | value (v : Word) (s : State)
  | hold
  | fault (f : Fault)

/-- What writing a CSR comes to (10_state.md §5). -/
inductive CsrWriteResult where
  | done (s : State)
  | hold
  | fault (f : Fault)

end Sys2Proof.Machine
end

