-- ==== Sys2Proof/Machine/Ops.lean ====
section
/-! DEFINITION. The named operations over registers, pc, memory, CSRs and FIFOs. Taking an exception and
returning from one have no operation here: the machine has no trap entry (R175), no trap return (R176) and no
interrupt (R174); a fault is an outcome of the step and changes no state (R172, log 19). -/

namespace Sys2Proof.Machine

/-! Registers and pc. -/

/-- `x[r]`: x0 reads as zero (R11). -/
def State.readReg (s : State) (r : RegNum) : Word :=
  if r = 0#5 then 0#32 else s.regs[r.toNat - 1]'(by have := r.isLt; omega)

/-- `x[r] <- v`: a write to x0 is discarded (R11). -/
def State.writeReg (s : State) (r : RegNum) (v : Word) : State :=
  if r = 0#5 then s
  else { s with regs := s.regs.set (r.toNat - 1) v (by have := r.isLt; omega) }

/-- `pc <- t`. -/
def State.setPc (s : State) (t : Word) : State := { s with pc := t }

/-- The address of the next instruction in memory, modulo 2^32 (R4, R14). -/
def State.nextPc (s : State) : Word := s.pc + 4#32

/-- `pc <- pc + 4` (R4). -/
def State.advance (s : State) : State := s.setPc s.nextPc

/-- `x[rd] <- v; pc <- pc + 4`: the effect of every arithmetic instruction, given its result. -/
def State.writeBack (s : State) (rd : RegNum) (v : Word) : Host.Outcome State Fault Refusal :=
  .next (s.writeReg rd v).advance

/-- `x[rd] <- pc + 4; pc <- t`: a jump that links. The target was computed before the write (R7). -/
def State.linkTo (s : State) (rd : RegNum) (t : Word) : Host.Outcome State Fault Refusal :=
  .next ((s.writeReg rd s.nextPc).setPc t)

/-- The two successors of a branch (46_branches.md). The target is not checked (D8). -/
def State.branchTo (s : State) (taken : Bool) (target : Word) : Host.Outcome State Fault Refusal :=
  .next (if taken then s.setPc target else s.advance)

/-- R8, R184: a held instruction changes no state; the same instruction is attempted at the next step
(log 10). -/
def State.hold (s : State) : Host.Outcome State Fault Refusal := .next s

/-! Memory: bytes. -/

/-- The byte at an address; an address that is not listed reads as Config says (log 5). -/
def Memory.readByte : Memory → Nat → Byte
  | [], _ => Config.unlistedByte
  | (k, b) :: rest, a => if k = a then b else Memory.readByte rest a

/-- The entry of address `a` becomes `v`, in its place in the rising order. -/
def Memory.putByte : Memory → Nat → Byte → Memory
  | [], a, v => [(a, v)]
  | (k, b) :: rest, a, v =>
    if a < k then (a, v) :: (k, b) :: rest
    else if a = k then (a, v) :: rest
    else (k, b) :: Memory.putByte rest a v

/-- The memory with no entry for address `a`. -/
def Memory.dropByte : Memory → Nat → Memory
  | [], _ => []
  | (k, b) :: rest, a =>
    if k = a then Memory.dropByte rest a else (k, b) :: Memory.dropByte rest a

/-- A store of one byte, kept canonical. -/
def Memory.writeByte (m : Memory) (a : Nat) (v : Byte) : Memory :=
  if v = Config.unlistedByte then m.dropByte a else m.putByte a v

/-! Memory: words, little endian (R30, R31). -/

/-- The word whose least significant byte is at `a`. -/
def Memory.readWord (m : Memory) (a : Nat) : Word :=
  wordOfBytes (m.readByte a) (m.readByte (a + 1)) (m.readByte (a + 2)) (m.readByte (a + 3))

/-- The four bytes of `v` at `a` to `a + 3`, all at once (R38). -/
def Memory.writeWord (m : Memory) (a : Nat) (v : Word) : Memory :=
  (((m.writeByte a (byteOfWord v 0)).writeByte (a + 1) (byteOfWord v 1)).writeByte
    (a + 2) (byteOfWord v 2)).writeByte (a + 3) (byteOfWord v 3)

/-! The checks (R32, R35, R36), misalignment before range (R173). -/

/-- `a[1:0] = 0`. -/
def aligned (a : Word) : Bool := a.extractLsb' 0 2 == 0#2

/-- `unsigned(a) <= 0x000fffff` (R36). -/
def inRange (a : Word) : Bool := decide (a.toNat < Config.memoryBytes)

/-- The checks of a data access (R32, R34, R36). -/
def checkData (a : Word) : Except Fault Unit :=
  if aligned a then
    if inRange a then .ok () else .error (.addressOutOfRange a)
  else .error (.misalignedData a)

/-- The checks of an instruction fetch (R33, R35, R36). -/
def checkFetch (pc : Word) : Except Fault Unit :=
  if aligned pc then
    if inRange pc then .ok () else .error (.addressOutOfRange pc)
  else .error (.misalignedFetch pc)

/-- A byte address inside one run of the program text. -/
def inTextRange (r : TextRange) (a : Nat) : Bool :=
  decide (4 * r.firstWord ≤ a) && decide (a < 4 * (r.firstWord + r.words))

/-- R47: whether a store to `a` is refused under the policy in force. -/
def refusesStore (p : SmcPolicy) (a : Word) : Bool :=
  match p with
  | .coherent    => false
  | .refuse text => text.any (fun r => inTextRange r a.toNat)

/-- `MemRead(a, 4)` (R32). -/
def State.loadWord (s : State) (a : Word) : Except Fault Word :=
  match checkData a with
  | .error f => .error f
  | .ok ()   => .ok (s.mem.readWord a.toNat)

/-- `MemWrite(a, 4, v)` (R32), after it the SMC_POLICY check (R173). -/
def State.storeWord (s : State) (a : Word) (v : Word) : Host.Outcome State Fault Refusal :=
  match checkData a with
  | .error f => .fault f
  | .ok ()   =>
    if refusesStore s.smc a then .refused (.storeToText a)
    else .next { s with mem := s.mem.writeWord a.toNat v }

/-- The word at pc (R33). -/
def State.fetch (s : State) : Except Fault Word :=
  match checkFetch s.pc with
  | .error f => .error f
  | .ok ()   => .ok (s.mem.readWord s.pc.toNat)

/-- A word placed at pc, as a loader would place it (R204); nothing where no word can be fetched. -/
def State.placeWord (s : State) (w : Word) : State :=
  match checkFetch s.pc with
  | .error _ => s
  | .ok ()   => { s with mem := s.mem.writeWord s.pc.toNat w }

/-! CSRs (10_state.md R16 to R22). -/

/-- The number of each CSR (R16). -/
def csrNumber : Csr → CsrNum
  | .proc2mngr => 0x7c0#12
  | .mngr2proc => 0xfc0#12
  | .coreid    => 0xf14#12
  | .numcores  => 0xfc1#12
  | .statsEn   => 0x7c1#12

/-- The CSR a number names, if any (R16, R17). -/
def csrOfNumber (n : CsrNum) : Option Csr :=
  [Csr.proc2mngr, .mngr2proc, .coreid, .numcores, .statsEn].find? (fun c => csrNumber c == n)

/-- `CSRRead(n)` (10_state.md §5). -/
def State.csrRead (s : State) (n : CsrNum) : CsrReadResult :=
  match csrOfNumber n with
  | none            => .fault (.illegalCsr n)
  | some .proc2mngr => .fault (.undefinedCsrAccess n .read)
  | some .mngr2proc =>
    match s.m2p with
    | []        => .hold
    | v :: rest => .value v { s with m2p := rest }
  | some .coreid    => .value s.coreId s
  | some .numcores  => .value s.numCores s
  | some .statsEn   => .value s.statsEn s

/-- `CSRWrite(n, v)` (10_state.md §5). -/
def State.csrWrite (s : State) (n : CsrNum) (v : Word) : CsrWriteResult :=
  match csrOfNumber n with
  | none            => .fault (.illegalCsr n)
  | some .proc2mngr =>
    if s.p2mReady then .done { s with p2m := s.p2m ++ [v], sent := s.sent ++ [v] } else .hold
  | some .mngr2proc => .fault (.undefinedCsrAccess n .write)
  | some .coreid    => .fault (.undefinedCsrAccess n .write)
  | some .numcores  => .fault (.undefinedCsrAccess n .write)
  | some .statsEn   => .done { s with statsEn := v }

/-! The manager (R183). -/

/-- The manager takes the next of its turns, if one is left (log 9). It touches its two FIFOs only. -/
def State.managerTurn (s : State) : State :=
  match s.manager with
  | []        => s
  | t :: rest =>
    { s with
      manager := rest, m2p := s.m2p ++ t.enqueue, p2m := s.p2m.drop t.dequeue, p2mReady := t.ready }

end Sys2Proof.Machine
end

