-- ==== Sys2Proof/Machine/Operands.lean ====
section
/-! DEFINITION. Every operand form: the five immediates as 32-bit values (30_encoding.md R55 to R59), the shift
amount of a register shift, the three shifts (R104), the effective address (44_memory_instructions.md). -/

namespace Sys2Proof.Machine

/-- R55, R56: the I- and S-immediates, sign extended. -/
def immValue (imm : BitVec 12) : Word := imm.signExtend 32

/-- R57: the B-immediate, sign extended. -/
def branchValue (offset : BitVec 13) : Word := offset.signExtend 32

/-- R58: the U-immediate, `imm << 12` once (C2). -/
def upperValue (imm : BitVec 20) : Word := imm ++ 0#12

/-- R59: the J-immediate, sign extended. -/
def jumpValue (offset : BitVec 21) : Word := offset.signExtend 32

/-- R97 to R99, R104: the bottom five bits of a register, and those only. -/
def shiftCount (v : Word) : BitVec 5 := v.extractLsb' 0 5

/-- `sll(v, n)` (R104). -/
def shiftLeft (v : Word) (n : BitVec 5) : Word := v <<< n.toNat

/-- `srl(v, n)` (R104). -/
def shiftRightLogical (v : Word) (n : BitVec 5) : Word := v >>> n.toNat

/-- `sra(v, n)` (R104): copies of bit 31 enter at the left. -/
def shiftRightArith (v : Word) (n : BitVec 5) : Word := v.sshiftRight n.toNat

/-- `(x[rs1] + imm) mod 2^32`, taken before any check (R130, R131). -/
def State.effectiveAddress (s : State) (rs1 : RegNum) (imm : BitVec 12) : Word :=
  s.readReg rs1 + immValue imm

/-- The target of a branch or of JAL: relative to the instruction's own address (R13, R140). -/
def State.relative (s : State) (offset : Word) : Word := s.pc + offset

/-- R141, R142: only bit 0 is cleared (C1). -/
def clearBit0 (t : Word) : Word := t &&& 0xfffffffe#32

end Sys2Proof.Machine
end

