-- ==== Sys2Proof/Machine/Flags.lean ====
section
/-! DEFINITION. The machine has no flags (10_state.md R15): no instruction records carry, overflow, zero or
sign. What other machines keep in flags, this one computes in the instruction that uses it: the comparisons of
42_reg_reg_arithmetic.md R103, written as 1 or 0 into a register or consumed by a branch. -/

namespace Sys2Proof.Machine

/-- `a <s b`: two's complement (R103; G1, log 20). -/
def ltSigned (a b : Word) : Bool := decide (a.toInt < b.toInt)

/-- `a <u b` (R103). -/
def ltUnsigned (a b : Word) : Bool := decide (a.toNat < b.toNat)

/-- `a >=s b`, the complement of `<s` (R103). -/
def geSigned (a b : Word) : Bool := decide (b.toInt ≤ a.toInt)

/-- `a >=u b`, the complement of `<u` (R103). -/
def geUnsigned (a b : Word) : Bool := decide (b.toNat ≤ a.toNat)

/-- What SLT and its kin write: 1 for true, 0 for false (R95; G2, log 20). -/
def boolWord (b : Bool) : Word := if b then 1#32 else 0#32

end Sys2Proof.Machine
end

