-- ==== Sys2Proof/Machine/Branch.lean ====
section
/-! DEFINITION. The six conditional branches (46_branches.md): two registers compared, no register written. -/

namespace Sys2Proof.Machine

/-- R150. -/
def execBeq (rs1 rs2 : RegNum) (offset : BitVec 13) (s : State) : Host.Outcome State Fault Refusal :=
  s.branchTo (s.readReg rs1 == s.readReg rs2) (s.relative (branchValue offset))

/-- R151. -/
def execBne (rs1 rs2 : RegNum) (offset : BitVec 13) (s : State) : Host.Outcome State Fault Refusal :=
  s.branchTo (s.readReg rs1 != s.readReg rs2) (s.relative (branchValue offset))

/-- R152. -/
def execBlt (rs1 rs2 : RegNum) (offset : BitVec 13) (s : State) : Host.Outcome State Fault Refusal :=
  s.branchTo (ltSigned (s.readReg rs1) (s.readReg rs2)) (s.relative (branchValue offset))

/-- R153. -/
def execBge (rs1 rs2 : RegNum) (offset : BitVec 13) (s : State) : Host.Outcome State Fault Refusal :=
  s.branchTo (geSigned (s.readReg rs1) (s.readReg rs2)) (s.relative (branchValue offset))

/-- R154. -/
def execBltu (rs1 rs2 : RegNum) (offset : BitVec 13) (s : State) : Host.Outcome State Fault Refusal :=
  s.branchTo (ltUnsigned (s.readReg rs1) (s.readReg rs2)) (s.relative (branchValue offset))

/-- R155. -/
def execBgeu (rs1 rs2 : RegNum) (offset : BitVec 13) (s : State) : Host.Outcome State Fault Refusal :=
  s.branchTo (geUnsigned (s.readReg rs1) (s.readReg rs2)) (s.relative (branchValue offset))

end Sys2Proof.Machine
end

