-- ==== Sys2Proof/Machine/CsrAccess.lean ====
section
/-! DEFINITION. CSRR and CSRW (41_csr_instructions.md). No privilege check: the machine is always in M-mode
(R82, R180). -/

namespace Sys2Proof.Machine

/-- R80: `x[rd] <- CSRRead(csr); pc <- pc + 4`. The read happens also when `rd` is x0 (R72). -/
def execCsrr (rd : RegNum) (csr : CsrNum) (s : State) : Host.Outcome State Fault Refusal :=
  match s.csrRead csr with
  | .value v s' => s'.writeBack rd v
  | .hold       => s.hold
  | .fault f    => .fault f

/-- R81: `CSRWrite(csr, x[rs1]); pc <- pc + 4`. -/
def execCsrw (csr : CsrNum) (rs1 : RegNum) (s : State) : Host.Outcome State Fault Refusal :=
  match s.csrWrite csr (s.readReg rs1) with
  | .done s' => .next s'.advance
  | .hold    => s.hold
  | .fault f => .fault f

end Sys2Proof.Machine
end

