-- ==== Sys2Proof/Machine/Jump.lean ====
section
/-! DEFINITION. JAL, JR, JALR (45_jumps.md). No jump checks its target: a bad one faults at the next fetch
(R35, R36, D8; log 21). There is no delay slot. -/

namespace Sys2Proof.Machine

/-- R140. -/
def execJal (rd : RegNum) (offset : BitVec 21) (s : State) : Host.Outcome State Fault Refusal :=
  s.linkTo rd (s.relative (jumpValue offset))

/-- R141: TinyRV1 takes the register as printed; TinyRV2 clears bit 0. -/
def execJr (rs1 : RegNum) (s : State) : Host.Outcome State Fault Refusal :=
  match s.version with
  | .tinyRV1 => .next (s.setPc (s.readReg rs1))
  | .tinyRV2 => .next (s.setPc (clearBit0 (s.readReg rs1)))

/-- R142: the target is made from the old `x[rs1]` (R7, D11, log 20), and bit 0 is cleared after the
addition (C1). -/
def execJalr (rd rs1 : RegNum) (imm : BitVec 12) (s : State) : Host.Outcome State Fault Refusal :=
  s.linkTo rd (clearBit0 (s.readReg rs1 + immValue imm))

end Sys2Proof.Machine
end

