-- ==== Sys2Proof/Machine/LoadStore.lean ====
section
/-! DEFINITION. LW and SW (44_memory_instructions.md). On a fault no register, no byte and not the pc changes
(R172). -/

namespace Sys2Proof.Machine

/-- R130: the read and its checks happen also when `rd` is x0. -/
def execLw (rd rs1 : RegNum) (imm : BitVec 12) (s : State) : Host.Outcome State Fault Refusal :=
  match s.loadWord (s.effectiveAddress rs1 imm) with
  | .ok v    => s.writeBack rd v
  | .error f => .fault f

/-- R131. -/
def execSw (rs2 rs1 : RegNum) (imm : BitVec 12) (s : State) : Host.Outcome State Fault Refusal :=
  match s.storeWord (s.effectiveAddress rs1 imm) (s.readReg rs2) with
  | .next s'   => .next s'.advance
  | .fault f   => .fault f
  | .refused r => .refused r

end Sys2Proof.Machine
end

