-- ==== Sys2Proof/Machine/RegImm.lean ====
section
/-! DEFINITION. Register-immediate arithmetic (43_reg_imm_arithmetic.md). ANDI, ORI, XORI and SLTIU use the
sign-extended immediate too. -/

namespace Sys2Proof.Machine

/-- R110. -/
def execAddi (rd rs1 : RegNum) (imm : BitVec 12) (s : State) : Host.Outcome State Fault Refusal :=
  s.writeBack rd (s.readReg rs1 + immValue imm)

/-- R111. -/
def execAndi (rd rs1 : RegNum) (imm : BitVec 12) (s : State) : Host.Outcome State Fault Refusal :=
  s.writeBack rd (s.readReg rs1 &&& immValue imm)

/-- R112. -/
def execOri (rd rs1 : RegNum) (imm : BitVec 12) (s : State) : Host.Outcome State Fault Refusal :=
  s.writeBack rd (s.readReg rs1 ||| immValue imm)

/-- R113. -/
def execXori (rd rs1 : RegNum) (imm : BitVec 12) (s : State) : Host.Outcome State Fault Refusal :=
  s.writeBack rd (s.readReg rs1 ^^^ immValue imm)

/-- R114. -/
def execSlti (rd rs1 : RegNum) (imm : BitVec 12) (s : State) : Host.Outcome State Fault Refusal :=
  s.writeBack rd (boolWord (ltSigned (s.readReg rs1) (immValue imm)))

/-- R115: the immediate is sign extended, then read as unsigned. -/
def execSltiu (rd rs1 : RegNum) (imm : BitVec 12) (s : State) : Host.Outcome State Fault Refusal :=
  s.writeBack rd (boolWord (ltUnsigned (s.readReg rs1) (immValue imm)))

/-- R116. -/
def execSrai (rd rs1 : RegNum) (shamt : BitVec 5) (s : State) : Host.Outcome State Fault Refusal :=
  s.writeBack rd (shiftRightArith (s.readReg rs1) shamt)

/-- R117. -/
def execSrli (rd rs1 : RegNum) (shamt : BitVec 5) (s : State) : Host.Outcome State Fault Refusal :=
  s.writeBack rd (shiftRightLogical (s.readReg rs1) shamt)

/-- R118. -/
def execSlli (rd rs1 : RegNum) (shamt : BitVec 5) (s : State) : Host.Outcome State Fault Refusal :=
  s.writeBack rd (shiftLeft (s.readReg rs1) shamt)

/-- R119: the previous value of `rd` does not matter. -/
def execLui (rd : RegNum) (imm : BitVec 20) (s : State) : Host.Outcome State Fault Refusal :=
  s.writeBack rd (upperValue imm)

/-- R120: relative to the address of the AUIPC itself (R13). -/
def execAuipc (rd : RegNum) (imm : BitVec 20) (s : State) : Host.Outcome State Fault Refusal :=
  s.writeBack rd (s.relative (upperValue imm))

end Sys2Proof.Machine
end

