-- ==== Sys2Proof/Machine/RegReg.lean ====
section
/-! DEFINITION. Register-register arithmetic (42_reg_reg_arithmetic.md). Both sources are read before `rd` is
written (R7); no arithmetic condition faults. -/

namespace Sys2Proof.Machine

/-- R90. -/
def execAdd (rd rs1 rs2 : RegNum) (s : State) : Host.Outcome State Fault Refusal :=
  s.writeBack rd (s.readReg rs1 + s.readReg rs2)

/-- R91: `rs1` minus `rs2`. -/
def execSub (rd rs1 rs2 : RegNum) (s : State) : Host.Outcome State Fault Refusal :=
  s.writeBack rd (s.readReg rs1 - s.readReg rs2)

/-- R92. -/
def execAnd (rd rs1 rs2 : RegNum) (s : State) : Host.Outcome State Fault Refusal :=
  s.writeBack rd (s.readReg rs1 &&& s.readReg rs2)

/-- R93. -/
def execOr (rd rs1 rs2 : RegNum) (s : State) : Host.Outcome State Fault Refusal :=
  s.writeBack rd (s.readReg rs1 ||| s.readReg rs2)

/-- R94. -/
def execXor (rd rs1 rs2 : RegNum) (s : State) : Host.Outcome State Fault Refusal :=
  s.writeBack rd (s.readReg rs1 ^^^ s.readReg rs2)

/-- R95. -/
def execSlt (rd rs1 rs2 : RegNum) (s : State) : Host.Outcome State Fault Refusal :=
  s.writeBack rd (boolWord (ltSigned (s.readReg rs1) (s.readReg rs2)))

/-- R96. -/
def execSltu (rd rs1 rs2 : RegNum) (s : State) : Host.Outcome State Fault Refusal :=
  s.writeBack rd (boolWord (ltUnsigned (s.readReg rs1) (s.readReg rs2)))

/-- R97. -/
def execSra (rd rs1 rs2 : RegNum) (s : State) : Host.Outcome State Fault Refusal :=
  s.writeBack rd (shiftRightArith (s.readReg rs1) (shiftCount (s.readReg rs2)))

/-- R98. -/
def execSrl (rd rs1 rs2 : RegNum) (s : State) : Host.Outcome State Fault Refusal :=
  s.writeBack rd (shiftRightLogical (s.readReg rs1) (shiftCount (s.readReg rs2)))

/-- R99. -/
def execSll (rd rs1 rs2 : RegNum) (s : State) : Host.Outcome State Fault Refusal :=
  s.writeBack rd (shiftLeft (s.readReg rs1) (shiftCount (s.readReg rs2)))

/-- R100, R102: the low 32 bits of the product (G3, log 20). -/
def execMul (rd rs1 rs2 : RegNum) (s : State) : Host.Outcome State Fault Refusal :=
  s.writeBack rd (s.readReg rs1 * s.readReg rs2)

end Sys2Proof.Machine
end

