-- ==== Sys2Proof/Machine/Step.lean ====
section
/-! DEFINITION. One step (00_scope.md R3): fetch, decode by the version in force, execute, and then the
manager's next turn (log 9). -/

namespace Sys2Proof.Machine

/-- After an instruction that completed or held, the manager takes its turn; a stop is final (R172). -/
def afterTurn : Host.Outcome State Fault Refusal → Host.Outcome State Fault Refusal
  | .next s    => .next s.managerTurn
  | .fault f   => .fault f
  | .refused r => .refused r

/-- R3, with the checks in the order of R173. -/
def step (s : State) : Host.Outcome State Fault Refusal :=
  match s.fetch with
  | .error f => .fault f
  | .ok w    =>
    match decodeWord s.version w with
    | .error _ => .fault (.illegalInstruction w s.pc)
    | .ok i    => afterTurn (exec i s)

/-- The instruction whose bits are `w` placed where the next step fetches (log 18). -/
def State.withFetchWord (s : State) (nbits w : Nat) : State :=
  s.placeWord (BitVec.ofNat 32 (w % 2 ^ nbits))

end Sys2Proof.Machine
end

