-- ==== Sys2Proof/Machine/Assembly.lean ====
section
/-! DEFINITION. The assembler's side of the spec: register names (10_state.md R12), assembly lines (30_encoding.md
R73), the operand ranges an assembler enforces (R74), the pseudo-instructions (47_pseudo_instructions.md). Nothing
here is executed: a decoder never produces a pseudo-instruction. -/

namespace Sys2Proof.Machine

/-- Who saves a register across a call, as the source prints it (R12, C15); the hardware ignores it. -/
inductive SavedBy where
  | caller
  | callee
  | nobody
deriving DecidableEq, Repr

/-- R12: the symbolic name of each register. -/
def regNames : List String :=
  ["zero", "ra", "sp", "gp", "tp", "t0", "t1", "t2", "s0", "s1", "a0", "a1", "a2", "a3", "a4", "a5"] ++
  ["a6", "a7", "s2", "s3", "s4", "s5", "s6", "s7", "s8", "s9", "s10", "s11", "t3", "t4", "t5", "t6"]

/-- R12: the symbolic name; `fp` is a second name of x8. -/
def regName (r : RegNum) : String := regNames.getD r.toNat ""

/-- R12: the last column of the table, as printed. -/
def regSavedBy (r : RegNum) : SavedBy :=
  let n := r.toNat
  if n = 0 ∨ n = 3 ∨ n = 4 then .nobody
  else if n = 8 ∨ n = 9 ∨ (18 ≤ n ∧ n ≤ 27) then .callee
  else .caller

/-- R16: the name of each CSR. -/
def csrName : Csr → String
  | .proc2mngr => "proc2mngr"
  | .mngr2proc => "mngr2proc"
  | .coreid    => "coreid"
  | .numcores  => "numcores"
  | .statsEn   => "stats_en"

/-- R73: a register operand as `x0` to `x31`. -/
def regText (r : RegNum) : String := "x" ++ toString r.toNat

/-- R73: a CSR operand by its name, or by its number where it names none. -/
def csrText (n : CsrNum) : String :=
  match csrOfNumber n with
  | some c => csrName c
  | none   => toString n.toNat

def text3 (op a b c : String) : String := op ++ " " ++ a ++ ", " ++ b ++ ", " ++ c
def regRegText (op : String) (rd rs1 rs2 : RegNum) : String := text3 op (regText rd) (regText rs1) (regText rs2)
def regImmText (op : String) (rd rs1 : RegNum) (imm : BitVec 12) : String :=
  text3 op (regText rd) (regText rs1) (toString imm.toInt)
def shiftText (op : String) (rd rs1 : RegNum) (shamt : BitVec 5) : String :=
  text3 op (regText rd) (regText rs1) (toString shamt.toNat)
def branchText (op : String) (rs1 rs2 : RegNum) (offset : BitVec 13) : String :=
  text3 op (regText rs1) (regText rs2) (toString offset.toInt)
def memText (op : String) (r base : RegNum) (imm : BitVec 12) : String :=
  op ++ " " ++ regText r ++ ", " ++ toString imm.toInt ++ "(" ++ regText base ++ ")"

/-- R73, D28: the assembly line of an instruction; numbers in decimal (DESIGN CHOICE, log 22). -/
def assemblyText : Instr → String
  | .csrr rd csr      => "csrr " ++ regText rd ++ ", " ++ csrText csr
  | .csrw csr rs1     => "csrw " ++ csrText csr ++ ", " ++ regText rs1
  | .add rd rs1 rs2   => regRegText "add" rd rs1 rs2
  | .sub rd rs1 rs2   => regRegText "sub" rd rs1 rs2
  | .and rd rs1 rs2   => regRegText "and" rd rs1 rs2
  | .or rd rs1 rs2    => regRegText "or" rd rs1 rs2
  | .xor rd rs1 rs2   => regRegText "xor" rd rs1 rs2
  | .slt rd rs1 rs2   => regRegText "slt" rd rs1 rs2
  | .sltu rd rs1 rs2  => regRegText "sltu" rd rs1 rs2
  | .sra rd rs1 rs2   => regRegText "sra" rd rs1 rs2
  | .srl rd rs1 rs2   => regRegText "srl" rd rs1 rs2
  | .sll rd rs1 rs2   => regRegText "sll" rd rs1 rs2
  | .mul rd rs1 rs2   => regRegText "mul" rd rs1 rs2
  | .addi rd rs1 imm  => regImmText "addi" rd rs1 imm
  | .andi rd rs1 imm  => regImmText "andi" rd rs1 imm
  | .ori rd rs1 imm   => regImmText "ori" rd rs1 imm
  | .xori rd rs1 imm  => regImmText "xori" rd rs1 imm
  | .slti rd rs1 imm  => regImmText "slti" rd rs1 imm
  | .sltiu rd rs1 imm => regImmText "sltiu" rd rs1 imm
  | .srai rd rs1 sh   => shiftText "srai" rd rs1 sh
  | .srli rd rs1 sh   => shiftText "srli" rd rs1 sh
  | .slli rd rs1 sh   => shiftText "slli" rd rs1 sh
  | .lui rd imm       => "lui " ++ regText rd ++ ", " ++ toString imm.toNat
  | .auipc rd imm     => "auipc " ++ regText rd ++ ", " ++ toString imm.toNat
  | .lw rd rs1 imm    => memText "lw" rd rs1 imm
  | .sw rs2 rs1 imm   => memText "sw" rs2 rs1 imm
  | .jal rd off       => "jal " ++ regText rd ++ ", " ++ toString off.toInt
  | .jr rs1           => "jr " ++ regText rs1
  | .jalr rd rs1 imm  => regImmText "jalr" rd rs1 imm
  | .beq rs1 rs2 off  => branchText "beq" rs1 rs2 off
  | .bne rs1 rs2 off  => branchText "bne" rs1 rs2 off
  | .blt rs1 rs2 off  => branchText "blt" rs1 rs2 off
  | .bge rs1 rs2 off  => branchText "bge" rs1 rs2 off
  | .bltu rs1 rs2 off => branchText "bltu" rs1 rs2 off
  | .bgeu rs1 rs2 off => branchText "bgeu" rs1 rs2 off

/-- R74: what an assembler accepts of a term: an even offset, and one of the five CSRs. -/
def assemblerAccepts (i : Instr) : Bool :=
  i.wellFormed &&
    match i with
    | .csrr _ csr | .csrw csr _ => (csrOfNumber csr).isSome
    | _ => true

/-- The four the source is careful with (R163). -/
inductive Pseudo where
  | nop
  | jr
  | csrr
  | csrw
deriving DecidableEq, Repr

/-- How an ISA has one of the four (R163); "--" is `absent`. -/
inductive Standing where
  | real
  | pseudo
  | absent
deriving DecidableEq, Repr

/-- R163: the two Tiny RISC-V columns of the table. -/
def Pseudo.standing : Pseudo → IsaVersion → Standing
  | .nop, _ => .pseudo
  | .jr, .tinyRV1 => .real
  | .jr, .tinyRV2 => .pseudo
  | .csrr, .tinyRV1 | .csrw, .tinyRV1 => .absent
  | .csrr, .tinyRV2 | .csrw, .tinyRV2 => .real

/-- R160: `nop == addi x0, x0, 0`. -/
def nop : Instr := .addi 0#5 0#5 0#12

/-- R161: `jr rs1 == jalr x0, rs1, 0`. -/
def jrAsJalr (rs1 : RegNum) : Instr := .jalr 0#5 rs1 0#12

/-- The word of RISC-V's general `csrrs rd, csr, rs1`, an instruction here only where `rs1` is x0 (R71, R162). -/
def csrrsWord (rd : RegNum) (csr : CsrNum) (rs1 : RegNum) : Word := iWord csr rs1 0b010#3 rd 0b1110011#7

/-- The word of RISC-V's general `csrrw rd, csr, rs1`, an instruction here only where `rd` is x0 (R71, R162). -/
def csrrwWord (rd : RegNum) (csr : CsrNum) (rs1 : RegNum) : Word := iWord csr rs1 0b001#3 rd 0b1110011#7

end Sys2Proof.Machine
end

