-- ==== Sys2Proof/Safety.lean ====
section
/-! DEFINITION. What counts as a good state and a good run, in the terms statements use: the invariant, the
launch states, runs and their ends, and what a step leaves unchanged. -/

namespace Sys2Proof.Machine

/-- What every step keeps. -/
structure Inv (s : State) : Prop where
  /-- Memory is canonical and inside the 1 MB (R23). -/
  mem  : s.mem.wf = true
  /-- What waits in proc2mngr is the end of what was ever sent (R19). -/
  fifo : s.p2m <:+ s.sent
  /-- NUM_CORES is at least 1 and CORE_ID less than it (00_scope.md §4, D26). -/
  ids  : s.coreId.toNat < s.numCores.toNat
  /-- Under TinyRV2 no instruction produces an odd pc (R57, R59, R142). -/
  even : s.version = .tinyRV2 → s.pc.getLsbD 0 = false

/-- The states at the first fetch (R25, R202): at the reset vector, nothing sent yet; registers, stats_en, the
memory image, the FIFO from the manager and the parameters are any. -/
structure Launch (s : State) : Prop where
  pc   : s.pc = 0x00000200#32
  p2m  : s.p2m = []
  sent : s.sent = []
  mem  : s.mem.wf = true
  ids  : s.coreId.toNat < s.numCores.toNat

/-- R184: the core attempts an instruction at which it is held. -/
def isHeld (i : Instr) (s : State) : Bool :=
  match i with
  | .csrr _ csr => match s.csrRead csr with
    | .hold => true
    | _     => false
  | .csrw csr rs1 => match s.csrWrite csr (s.readReg rs1) with
    | .hold => true
    | _     => false
  | _ => false

/-- How a run ends (R190). Only `ended` is a successful end. -/
inductive RunEnd where
  | ended (s : State)
  | faulted (f : Fault) (s : State)
  | refused (r : Refusal) (s : State)
  | unfinished (s : State)

/-- At most `k` steps, under END_OF_RUN (R190, D21; log 16). The instruction at the end is not fetched. -/
def runUntil (endOfRun : State → Bool) : Nat → State → RunEnd
  | 0, s => if endOfRun s then .ended s else .unfinished s
  | k + 1, s =>
    if endOfRun s then .ended s
    else match step s with
      | .next t    => runUntil endOfRun k t
      | .fault f   => .faulted f s
      | .refused r => .refused r s

/-- A run that never stops with a fault or a refusal, whatever its length (R172, R190). -/
def SafeRun (s : State) : Prop := ∀ k f r t,
  runUntil (fun _ => false) k s ≠ .faulted f t ∧ runUntil (fun _ => false) k s ≠ .refused r t

/-- The nine instructions that say where the pc goes (R4): JAL, JR, JALR and the branches. -/
def transfersControl : Instr → Bool
  | .jal _ _ | .jr _ | .jalr _ _ _ => true
  | .beq _ _ _ | .bne _ _ _ | .blt _ _ _ | .bge _ _ _ | .bltu _ _ _ | .bgeu _ _ _ => true
  | _ => false

/-! What an instruction leaves unchanged. -/

/-- The parameters and the manager's own turns. -/
structure SameSetting (s t : State) : Prop where
  version  : t.version = s.version
  smc      : t.smc = s.smc
  coreId   : t.coreId = s.coreId
  numCores : t.numCores = s.numCores
  manager  : t.manager = s.manager

/-- The two FIFOs and the output. -/
structure SameFifos (s t : State) : Prop where
  m2p      : t.m2p = s.m2p
  p2m      : t.p2m = s.p2m
  p2mReady : t.p2mReady = s.p2mReady
  sent     : t.sent = s.sent

/-- Every general register. -/
def SameRegs (s t : State) : Prop := ∀ r, t.readReg r = s.readReg r

/-- Every general register but `rd`. -/
def SameRegsBut (rd : RegNum) (s t : State) : Prop := ∀ r, r ≠ rd → t.readReg r = s.readReg r

/-- Every byte of memory. -/
def SameMemory (s t : State) : Prop := ∀ a, t.mem.readByte a = s.mem.readByte a

/-- Everything but the general registers and the pc. -/
structure SameButRegs (s t : State) : Prop where
  setting : SameSetting s t
  fifos   : SameFifos s t
  statsEn : t.statsEn = s.statsEn
  memory  : SameMemory s t

/-- `rd` holds `v` (x0 holds zero, R11), the pc is `p`, and nothing else has changed. -/
structure WroteReg (s t : State) (rd : RegNum) (v p : Word) : Prop where
  result : t.readReg rd = if rd = 0#5 then 0#32 else v
  others : SameRegsBut rd s t
  pc     : t.pc = p
  rest   : SameButRegs s t

/-- The pc is `p`, and nothing else has changed. -/
structure OnlyPc (s t : State) (p : Word) : Prop where
  regs : SameRegs s t
  pc   : t.pc = p
  rest : SameButRegs s t

end Sys2Proof.Machine
end

