-- ==== Sys2Proof/Certificates/Slice0/Obligations.lean ====
section
/-! DEFINITION. The statements for the provers. Words are written out bit by bit from the rules' own encoding lines,
apart from the encoder; results are stated in integers or bit by bit; `WroteReg` and `OnlyPc` (Safety) say the frame:
every other register, flagless status, CSR, FIFO, parameter and byte of memory is as before. -/

open Sys2Proof Sys2Proof.Machine

/-! ## Decoding -/

/-- Every well-formed instruction of a version is decoded from the word it is encoded to, operand for operand; a JR
word is a JALR word to TinyRV2. -/
def Obligations.DecodeOfEncodeIsTheInstruction : Prop :=
  (∀ v i, i.wellFormed = true → i.inVersion v = true → decodeWord v (encode i) = .ok i) ∧
  (∀ rs1, decodeWord .tinyRV2 (encode (.jr rs1)) = .ok (.jalr 0#5 rs1 0#12))

/-- Every word that decodes is the word its instruction is encoded to, and what it decodes to is a well-formed
instruction of the version: no bit of a word is dropped. -/
def Obligations.EncodeOfDecodeIsTheWord : Prop :=
  ∀ v w i, decodeWord v w = .ok i → encode i = w ∧ i.wellFormed = true ∧ i.inVersion v = true

/-- R1: the eight instructions of TinyRV1, the 34 of TinyRV2, and every TinyRV1 word the same instruction in TinyRV2,
seven by name and JR as `jalr x0, rs1, 0`. -/
def Obligations.TinyRV1IsASubsetOfTinyRV2 : Prop :=
  (∀ v i, i.wellFormed = true → (i.inVersion v = true ↔ ∃ w, decodeWord v w = .ok i)) ∧
  (opcodeTable.filter (fun r => r.inRV1)).map (fun r => r.mnemonic) =
    ["ADD", "MUL", "ADDI", "LW", "SW", "JAL", "JR", "BNE"] ∧
  (opcodeTable.filter (fun r => r.inRV2)).map (fun r => r.mnemonic) =
    ["CSRR", "CSRW", "ADD", "SUB", "AND", "OR", "XOR", "SLT", "SLTU", "SRA", "SRL", "SLL", "MUL", "ADDI", "ANDI", "ORI",
      "XORI", "SLTI", "SLTIU", "SRAI", "SRLI", "SLLI", "LUI", "AUIPC", "LW", "SW", "JAL", "JALR", "BEQ", "BNE", "BLT",
      "BGE", "BLTU", "BGEU"] ∧
  (∀ w i, decodeWord .tinyRV1 w = .ok i →
    decodeWord .tinyRV2 w = .ok (match i with
      | .jr rs1 => .jalr 0#5 rs1 0#12
      | j => j))

/-- The words a TinyRV2 decoder rejects are exactly those of the cases of 30_encoding.md's table of words outside the
opcode map (strict decode of CSRR and CSRW among them, 92_eei_decisions.md D2, D3). -/
def Obligations.WordsOutsideTheTableAreExactlyTheseRejected : Prop :=
  ∀ w : Word, decodeWord .tinyRV2 w = .error (.notAnInstruction w) ↔
    (let op := w.extractLsb' 0 7
     let f3 := w.extractLsb' 12 3
     let f7 := w.extractLsb' 25 7
     op ∉ [0x33#7, 0x13#7, 0x37#7, 0x17#7, 0x03#7, 0x23#7, 0x6f#7, 0x67#7, 0x63#7, 0x73#7] ∨
     (op = 0x33#7 ∧ (f7, f3) ∉ [(0#7, 0#3), (0x20#7, 0#3), (0#7, 7#3), (0#7, 6#3), (0#7, 4#3), (0#7, 2#3), (0#7, 3#3),
       (0x20#7, 5#3), (0#7, 5#3), (0#7, 1#3), (1#7, 0#3)]) ∨
     (op = 0x13#7 ∧ f3 = 1#3 ∧ f7 ≠ 0#7) ∨
     (op = 0x13#7 ∧ f3 = 5#3 ∧ f7 ≠ 0#7 ∧ f7 ≠ 0x20#7) ∨
     (op = 0x03#7 ∧ f3 ≠ 2#3) ∨ (op = 0x23#7 ∧ f3 ≠ 2#3) ∨ (op = 0x67#7 ∧ f3 ≠ 0#3) ∨
     (op = 0x63#7 ∧ (f3 = 2#3 ∨ f3 = 3#3)) ∨
     (op = 0x73#7 ∧ ¬(f3 = 2#3 ∧ w.extractLsb' 15 5 = 0#5) ∧ ¬(f3 = 1#3 ∧ w.extractLsb' 7 5 = 0#5)))

/-- R162: CSRR and CSRW are the general CSRRS and CSRRW with x0; that the general words with another register are
no instructions is the spec's own decision (D3), and TinyRV1 has none of them. -/
def Obligations.GeneralCsrWordsAreInstructionsOnlyWithX0 : Prop :=
  ∀ (csr : CsrNum) (rd rs1 : RegNum),
    decodeWord .tinyRV2 (csrrsWord rd csr rs1) =
      (if rs1 = 0#5 then .ok (.csrr rd csr) else .error (.notAnInstruction (csrrsWord rd csr rs1))) ∧
    decodeWord .tinyRV2 (csrrwWord rd csr rs1) =
      (if rd = 0#5 then .ok (.csrw csr rs1) else .error (.notAnInstruction (csrrwWord rd csr rs1))) ∧
    decodeWord .tinyRV1 (csrrsWord rd csr rs1) = .error (.notAnInstruction (csrrsWord rd csr rs1)) ∧
    decodeWord .tinyRV1 (csrrwWord rd csr rs1) = .error (.notAnInstruction (csrrwWord rd csr rs1))

/-- R55 to R59: which bit of the instruction each bit of each 32-bit immediate is. -/
def Obligations.ImmediateBitsComeFromTheseInstructionBits : Prop :=
  ∀ (w : Word) (k : Nat), k < 32 →
    (immValue (immIOf w)).getLsbD k = (if k < 11 then w.getLsbD (k + 20) else w.getLsbD 31) ∧
    (immValue (immSOf w)).getLsbD k =
      (if k < 5 then w.getLsbD (k + 7) else if k < 11 then w.getLsbD (k + 20) else w.getLsbD 31) ∧
    (branchValue (immBOf w)).getLsbD k =
      (if k = 0 then false else if k < 5 then w.getLsbD (k + 7) else if k < 11 then w.getLsbD (k + 20)
       else if k = 11 then w.getLsbD 7 else w.getLsbD 31) ∧
    (upperValue (immUOf w)).getLsbD k = (if k < 12 then false else w.getLsbD k) ∧
    (jumpValue (immJOf w)).getLsbD k =
      (if k = 0 then false else if k < 11 then w.getLsbD (k + 20) else if k = 11 then w.getLsbD 20
       else if k < 20 then w.getLsbD k else w.getLsbD 31)

/-- Words printed in the spec's worked examples, one or two of each family. -/
def Obligations.PrintedWordsDecode : Prop :=
  decodeWord .tinyRV2 0xfc0022f3#32 = .ok (.csrr 5#5 0xfc0#12) ∧
  decodeWord .tinyRV2 0x7c029073#32 = .ok (.csrw 0x7c0#12 5#5) ∧
  decodeWord .tinyRV2 0x402081b3#32 = .ok (.sub 3#5 1#5 2#5) ∧
  decodeWord .tinyRV2 0x03df0fb3#32 = .ok (.mul 31#5 30#5 29#5) ∧
  decodeWord .tinyRV2 0xfff30293#32 = .ok (.addi 5#5 6#5 (-1)) ∧
  decodeWord .tinyRV2 0x41f0d193#32 = .ok (.srai 3#5 1#5 31#5) ∧
  decodeWord .tinyRV2 0x123451b7#32 = .ok (.lui 3#5 0x12345#20) ∧
  decodeWord .tinyRV2 0x00812283#32 = .ok (.lw 5#5 2#5 8#12) ∧
  decodeWord .tinyRV2 0xfe512e23#32 = .ok (.sw 5#5 2#5 (-4)) ∧
  decodeWord .tinyRV2 0xff9ff06f#32 = .ok (.jal 0#5 (-8)) ∧
  decodeWord .tinyRV2 0x000f8067#32 = .ok (.jalr 0#5 31#5 0#12) ∧
  decodeWord .tinyRV1 0x000f8067#32 = .ok (.jr 31#5) ∧
  decodeWord .tinyRV2 0xfe208ee3#32 = .ok (.beq 1#5 2#5 (-4))

/-! ## The step -/

/-- From every launch state, the reset state among them, the first instruction is the word at 0x00000200 (R200), its
bytes little endian (20_memory.md's derivation for a fetch). That reset is a launch state rests on D20 (nothing sent
yet) and on D26 (the single core's identity, log 6) too. -/
def Obligations.FirstInstructionIsTheWordAtTheResetVector : Prop :=
  Launch State.reset ∧
  ∀ s : State, Launch s →
    s.pc = 0x00000200#32 ∧
    s.fetch = .ok (s.mem.readByte 0x203 ++ s.mem.readByte 0x202 ++ s.mem.readByte 0x201 ++ s.mem.readByte 0x200)

/-- When the four bytes at an aligned pc inside memory decode, least significant byte first, the step is that
instruction's execution in that state and then, if it answered a next state, the manager's turn (the turn is the
model's choice, log 9). -/
def Obligations.StepRunsTheDecodedInstruction : Prop :=
  ∀ (s : State) (b0 b1 b2 b3 : Byte) (i : Instr),
    s.pc.toNat % 4 = 0 → s.pc.toNat ≤ 0x000fffff →
    s.mem.readByte s.pc.toNat = b0 → s.mem.readByte (s.pc.toNat + 1) = b1 →
    s.mem.readByte (s.pc.toNat + 2) = b2 → s.mem.readByte (s.pc.toNat + 3) = b3 →
    decodeWord s.version (b3 ++ b2 ++ b1 ++ b0) = .ok i →
    step s = (match exec i s with
      | .next t    => .next t.managerTurn
      | .fault f   => .fault f
      | .refused r => .refused r)

/-- The order of the checks of a fetch: alignment, then range, then the opcode map. -/
def Obligations.FetchChecksAlignmentThenRangeThenTheWord : Prop :=
  ∀ s : State,
    (s.pc.toNat % 4 ≠ 0 → step s = .fault (.misalignedFetch s.pc)) ∧
    (s.pc.toNat % 4 = 0 → 0x000fffff < s.pc.toNat → step s = .fault (.addressOutOfRange s.pc)) ∧
    (s.pc.toNat % 4 = 0 → s.pc.toNat ≤ 0x000fffff →
      decodeWord s.version (s.mem.readWord s.pc.toNat) = .error (.notAnInstruction (s.mem.readWord s.pc.toNat)) →
      step s = .fault (.illegalInstruction (s.mem.readWord s.pc.toNat) s.pc))

/-- The manager's turn (the model's form of the manager, log 9) appends to mngr2proc, takes from the head of
proc2mngr, sets its readiness, and touches nothing else. -/
def Obligations.ManagerTouchesOnlyItsFifos : Prop :=
  ∀ s : State,
    SameRegs s s.managerTurn ∧ s.managerTurn.pc = s.pc ∧ s.managerTurn.statsEn = s.statsEn ∧
    SameMemory s s.managerTurn ∧ s.managerTurn.sent = s.sent ∧ s.managerTurn.version = s.version ∧
    s.managerTurn.smc = s.smc ∧ s.managerTurn.coreId = s.coreId ∧ s.managerTurn.numCores = s.numCores ∧
    (s.manager = [] → s.managerTurn = s) ∧
    (∀ t rest, s.manager = t :: rest →
      s.managerTurn.manager = rest ∧ s.managerTurn.m2p = s.m2p ++ t.enqueue ∧
      s.managerTurn.p2m = s.p2m.drop t.dequeue ∧ s.managerTurn.p2mReady = t.ready)

/-! ## Registers -/

/-- x0 reads as zero and discards writes; each of the 31 others holds what was last written to it. -/
def Obligations.X0IsZeroAndTheOthersAreStorage : Prop :=
  ∀ (s : State) (v : Word),
    s.readReg 0#5 = 0#32 ∧ s.writeReg 0#5 v = s ∧
    ∀ r, r ≠ 0#5 → (s.writeReg r v).readReg r = v ∧ ∀ q, q ≠ r → (s.writeReg r v).readReg q = s.readReg q

/-! ## Register-register arithmetic -/

/-- R90, R91. -/
def Obligations.AddAndSubWrapModulo2Pow32 : Prop :=
  ∀ (s : State) (rd rs1 rs2 : RegNum),
    (∀ v, decodeWord v (0b0000000#7 ++ rs2 ++ rs1 ++ 0b000#3 ++ rd ++ 0b0110011#7) = .ok (.add rd rs1 rs2)) ∧
    decodeWord .tinyRV2 (0b0100000#7 ++ rs2 ++ rs1 ++ 0b000#3 ++ rd ++ 0b0110011#7) = .ok (.sub rd rs1 rs2) ∧
    (∃ t, exec (.add rd rs1 rs2) s = .next t ∧
      WroteReg s t rd (BitVec.ofNat 32 (((s.readReg rs1).toNat + (s.readReg rs2).toNat) % 2 ^ 32)) (s.pc + 4#32)) ∧
    (∃ t, exec (.sub rd rs1 rs2) s = .next t ∧
      WroteReg s t rd (BitVec.ofInt 32 (((s.readReg rs1).toNat : Int) - ((s.readReg rs2).toNat : Int))) (s.pc + 4#32))

/-- R92, R93, R94, bit by bit. -/
def Obligations.BitwiseRegRegActsOnEachBit : Prop :=
  ∀ (s : State) (rd rs1 rs2 : RegNum),
    decodeWord .tinyRV2 (0b0000000#7 ++ rs2 ++ rs1 ++ 0b111#3 ++ rd ++ 0b0110011#7) = .ok (.and rd rs1 rs2) ∧
    decodeWord .tinyRV2 (0b0000000#7 ++ rs2 ++ rs1 ++ 0b110#3 ++ rd ++ 0b0110011#7) = .ok (.or rd rs1 rs2) ∧
    decodeWord .tinyRV2 (0b0000000#7 ++ rs2 ++ rs1 ++ 0b100#3 ++ rd ++ 0b0110011#7) = .ok (.xor rd rs1 rs2) ∧
    (∃ t v, exec (.and rd rs1 rs2) s = .next t ∧ WroteReg s t rd v (s.pc + 4#32) ∧
      ∀ i, v.getLsbD i = ((s.readReg rs1).getLsbD i && (s.readReg rs2).getLsbD i)) ∧
    (∃ t v, exec (.or rd rs1 rs2) s = .next t ∧ WroteReg s t rd v (s.pc + 4#32) ∧
      ∀ i, v.getLsbD i = ((s.readReg rs1).getLsbD i || (s.readReg rs2).getLsbD i)) ∧
    (∃ t v, exec (.xor rd rs1 rs2) s = .next t ∧ WroteReg s t rd v (s.pc + 4#32) ∧
      ∀ i, v.getLsbD i = ((s.readReg rs1).getLsbD i != (s.readReg rs2).getLsbD i))

/-- SLT and SLTU write 1 or 0; two's complement and the values 1 and 0 are the spec's own (D12, D13; log 20). -/
def Obligations.SetLessThanWritesOneOrZero : Prop :=
  ∀ (s : State) (rd rs1 rs2 : RegNum),
    decodeWord .tinyRV2 (0b0000000#7 ++ rs2 ++ rs1 ++ 0b010#3 ++ rd ++ 0b0110011#7) = .ok (.slt rd rs1 rs2) ∧
    decodeWord .tinyRV2 (0b0000000#7 ++ rs2 ++ rs1 ++ 0b011#3 ++ rd ++ 0b0110011#7) = .ok (.sltu rd rs1 rs2) ∧
    (∃ t, exec (.slt rd rs1 rs2) s = .next t ∧
      WroteReg s t rd (if (s.readReg rs1).toInt < (s.readReg rs2).toInt then 1#32 else 0#32) (s.pc + 4#32)) ∧
    (∃ t, exec (.sltu rd rs1 rs2) s = .next t ∧
      WroteReg s t rd (if (s.readReg rs1).toNat < (s.readReg rs2).toNat then 1#32 else 0#32) (s.pc + 4#32))

/-- R97, R98, R99: the count is the bottom five bits of `x[rs2]`; each result bit by the rule's own formula. -/
def Obligations.RegisterShiftsMoveEachBit : Prop :=
  ∀ (s : State) (rd rs1 rs2 : RegNum),
    decodeWord .tinyRV2 (0b0100000#7 ++ rs2 ++ rs1 ++ 0b101#3 ++ rd ++ 0b0110011#7) = .ok (.sra rd rs1 rs2) ∧
    decodeWord .tinyRV2 (0b0000000#7 ++ rs2 ++ rs1 ++ 0b101#3 ++ rd ++ 0b0110011#7) = .ok (.srl rd rs1 rs2) ∧
    decodeWord .tinyRV2 (0b0000000#7 ++ rs2 ++ rs1 ++ 0b001#3 ++ rd ++ 0b0110011#7) = .ok (.sll rd rs1 rs2) ∧
    (∃ t v, exec (.sra rd rs1 rs2) s = .next t ∧ WroteReg s t rd v (s.pc + 4#32) ∧
      ∀ i, i < 32 → v.getLsbD i =
        (if i + (s.readReg rs2).toNat % 32 ≤ 31 then (s.readReg rs1).getLsbD (i + (s.readReg rs2).toNat % 32)
         else (s.readReg rs1).getLsbD 31)) ∧
    (∃ t v, exec (.srl rd rs1 rs2) s = .next t ∧ WroteReg s t rd v (s.pc + 4#32) ∧
      ∀ i, i < 32 → v.getLsbD i =
        (if i + (s.readReg rs2).toNat % 32 ≤ 31 then (s.readReg rs1).getLsbD (i + (s.readReg rs2).toNat % 32)
         else false)) ∧
    (∃ t v, exec (.sll rd rs1 rs2) s = .next t ∧ WroteReg s t rd v (s.pc + 4#32) ∧
      ∀ i, i < 32 → v.getLsbD i =
        (if (s.readReg rs2).toNat % 32 ≤ i then (s.readReg rs1).getLsbD (i - (s.readReg rs2).toNat % 32) else false))

/-- MUL writes the low 32 bits of the exact product, the same bits for the signed and the unsigned reading; that the
low half is kept is the spec's own decision (D14; log 20). -/
def Obligations.MulKeepsTheLowHalfOfTheProduct : Prop :=
  ∀ (s : State) (rd rs1 rs2 : RegNum),
    (∀ v, decodeWord v (0b0000001#7 ++ rs2 ++ rs1 ++ 0b000#3 ++ rd ++ 0b0110011#7) = .ok (.mul rd rs1 rs2)) ∧
    (∃ t v, exec (.mul rd rs1 rs2) s = .next t ∧ WroteReg s t rd v (s.pc + 4#32) ∧
      v.toNat = ((s.readReg rs1).toNat * (s.readReg rs2).toNat) % 2 ^ 32 ∧
      v = BitVec.ofInt 32 ((s.readReg rs1).toInt * (s.readReg rs2).toInt))

/-! ## Register-immediate arithmetic -/

/-- R110. -/
def Obligations.AddiAddsTheSignedImmediate : Prop :=
  ∀ (s : State) (rd rs1 : RegNum) (imm : BitVec 12),
    (∀ v, decodeWord v (imm ++ rs1 ++ 0b000#3 ++ rd ++ 0b0010011#7) = .ok (.addi rd rs1 imm)) ∧
    (∃ t, exec (.addi rd rs1 imm) s = .next t ∧
      WroteReg s t rd (BitVec.ofInt 32 (((s.readReg rs1).toNat : Int) + imm.toInt)) (s.pc + 4#32))

/-- R111, R112, R113: bit i of the immediate is its bit 11 from bit 11 up. -/
def Obligations.BitwiseRegImmUsesTheSignExtendedImmediate : Prop :=
  ∀ (s : State) (rd rs1 : RegNum) (imm : BitVec 12),
    decodeWord .tinyRV2 (imm ++ rs1 ++ 0b111#3 ++ rd ++ 0b0010011#7) = .ok (.andi rd rs1 imm) ∧
    decodeWord .tinyRV2 (imm ++ rs1 ++ 0b110#3 ++ rd ++ 0b0010011#7) = .ok (.ori rd rs1 imm) ∧
    decodeWord .tinyRV2 (imm ++ rs1 ++ 0b100#3 ++ rd ++ 0b0010011#7) = .ok (.xori rd rs1 imm) ∧
    (∃ t v, exec (.andi rd rs1 imm) s = .next t ∧ WroteReg s t rd v (s.pc + 4#32) ∧
      ∀ i, i < 32 → v.getLsbD i = ((s.readReg rs1).getLsbD i && imm.getLsbD (min i 11))) ∧
    (∃ t v, exec (.ori rd rs1 imm) s = .next t ∧ WroteReg s t rd v (s.pc + 4#32) ∧
      ∀ i, i < 32 → v.getLsbD i = ((s.readReg rs1).getLsbD i || imm.getLsbD (min i 11))) ∧
    (∃ t v, exec (.xori rd rs1 imm) s = .next t ∧ WroteReg s t rd v (s.pc + 4#32) ∧
      ∀ i, i < 32 → v.getLsbD i = ((s.readReg rs1).getLsbD i != imm.getLsbD (min i 11)))

/-- SLTI and SLTIU write 1 or 0; SLTIU reads the sign-extended immediate as unsigned. The values 1 and 0 and two's
complement are the spec's own (D12, D13; log 20). -/
def Obligations.SetLessThanImmediateWritesOneOrZero : Prop :=
  ∀ (s : State) (rd rs1 : RegNum) (imm : BitVec 12),
    decodeWord .tinyRV2 (imm ++ rs1 ++ 0b010#3 ++ rd ++ 0b0010011#7) = .ok (.slti rd rs1 imm) ∧
    decodeWord .tinyRV2 (imm ++ rs1 ++ 0b011#3 ++ rd ++ 0b0010011#7) = .ok (.sltiu rd rs1 imm) ∧
    (∃ t, exec (.slti rd rs1 imm) s = .next t ∧
      WroteReg s t rd (if (s.readReg rs1).toInt < imm.toInt then 1#32 else 0#32) (s.pc + 4#32)) ∧
    (∃ t, exec (.sltiu rd rs1 imm) s = .next t ∧
      WroteReg s t rd
        (if ((s.readReg rs1).toNat : Int) < (if imm.toInt < 0 then imm.toInt + 2 ^ 32 else imm.toInt) then 1#32 else 0#32)
        (s.pc + 4#32))

/-- R116, R117, R118. -/
def Obligations.ImmediateShiftsMoveEachBit : Prop :=
  ∀ (s : State) (rd rs1 : RegNum) (shamt : BitVec 5),
    decodeWord .tinyRV2 (0b0100000#7 ++ shamt ++ rs1 ++ 0b101#3 ++ rd ++ 0b0010011#7) = .ok (.srai rd rs1 shamt) ∧
    decodeWord .tinyRV2 (0b0000000#7 ++ shamt ++ rs1 ++ 0b101#3 ++ rd ++ 0b0010011#7) = .ok (.srli rd rs1 shamt) ∧
    decodeWord .tinyRV2 (0b0000000#7 ++ shamt ++ rs1 ++ 0b001#3 ++ rd ++ 0b0010011#7) = .ok (.slli rd rs1 shamt) ∧
    (∃ t v, exec (.srai rd rs1 shamt) s = .next t ∧ WroteReg s t rd v (s.pc + 4#32) ∧
      ∀ i, i < 32 → v.getLsbD i =
        (if i + shamt.toNat ≤ 31 then (s.readReg rs1).getLsbD (i + shamt.toNat) else (s.readReg rs1).getLsbD 31)) ∧
    (∃ t v, exec (.srli rd rs1 shamt) s = .next t ∧ WroteReg s t rd v (s.pc + 4#32) ∧
      ∀ i, i < 32 → v.getLsbD i =
        (if i + shamt.toNat ≤ 31 then (s.readReg rs1).getLsbD (i + shamt.toNat) else false)) ∧
    (∃ t v, exec (.slli rd rs1 shamt) s = .next t ∧ WroteReg s t rd v (s.pc + 4#32) ∧
      ∀ i, i < 32 → v.getLsbD i =
        (if shamt.toNat ≤ i then (s.readReg rs1).getLsbD (i - shamt.toNat) else false))

/-- R119, R120. -/
def Obligations.LuiAndAuipcPlaceTheUpperImmediate : Prop :=
  ∀ (s : State) (rd : RegNum) (imm : BitVec 20),
    decodeWord .tinyRV2 (imm ++ rd ++ 0b0110111#7) = .ok (.lui rd imm) ∧
    decodeWord .tinyRV2 (imm ++ rd ++ 0b0010111#7) = .ok (.auipc rd imm) ∧
    (∃ t, exec (.lui rd imm) s = .next t ∧
      WroteReg s t rd (BitVec.ofNat 32 (imm.toNat * 4096)) (s.pc + 4#32)) ∧
    (∃ t, exec (.auipc rd imm) s = .next t ∧
      WroteReg s t rd (BitVec.ofNat 32 ((s.pc.toNat + imm.toNat * 4096) % 2 ^ 32)) (s.pc + 4#32))

/-- The idiom of 43_reg_imm_arithmetic.md, LUI: every 32-bit constant is built by a LUI and an ADDI, with `lo` the
signed low 12 bits and `hi` the rest, one more where bit 11 is set. -/
def Obligations.LuiThenAddiBuildsEveryConstant : Prop :=
  ∀ (s : State) (rd : RegNum) (c : Word), rd ≠ 0#5 →
    ∃ t u, exec (.lui rd ((c - (c.extractLsb' 0 12).signExtend 32).extractLsb' 12 20)) s = .next t ∧
      exec (.addi rd rd (c.extractLsb' 0 12)) t = .next u ∧
      WroteReg s u rd c (s.pc + 8#32)

/-! ## Arithmetic laws -/

/-- R103. -/
def Obligations.SignedAndUnsignedOrdersAgreeOnEqualSigns : Prop :=
  ∀ a b : Word,
    (ltSigned a b = true ↔ a.toInt < b.toInt) ∧ (geSigned a b = true ↔ b.toInt ≤ a.toInt) ∧
    (ltUnsigned a b = true ↔ a.toNat < b.toNat) ∧ (geUnsigned a b = true ↔ b.toNat ≤ a.toNat) ∧
    geSigned a b = !ltSigned a b ∧ geUnsigned a b = !ltUnsigned a b ∧
    (a.getLsbD 31 = b.getLsbD 31 → ltSigned a b = ltUnsigned a b) ∧
    (a.getLsbD 31 ≠ b.getLsbD 31 → ltSigned a b = !ltUnsigned a b)

/-- R104: shifts as products and quotients by powers of two; the quotient of `sra` rounds toward minus infinity. -/
def Obligations.ShiftsScaleByPowersOfTwo : Prop :=
  ∀ (v : Word) (n : BitVec 5),
    n.toNat ≤ 31 ∧ (shiftCount v).toNat = v.toNat % 32 ∧
    (shiftLeft v n).toNat = (v.toNat * 2 ^ n.toNat) % 2 ^ 32 ∧
    (shiftRightLogical v n).toNat = v.toNat / 2 ^ n.toNat ∧
    (shiftRightArith v n).toInt = Int.fdiv v.toInt (2 ^ n.toNat) ∧
    (∀ i, i < n.toNat → (shiftLeft v n).getLsbD i = false) ∧
    (∀ i, 32 - n.toNat ≤ i → i < 32 →
      (shiftRightLogical v n).getLsbD i = false ∧ (shiftRightArith v n).getLsbD i = v.getLsbD 31)

/-! ## Memory -/

/-- R30, through LW: the byte at the lowest address is the least significant, the one at the highest the most. -/
def Obligations.LoadPutsTheLowestAddressLeastSignificant : Prop :=
  ∀ (s : State) (rd rs1 : RegNum) (imm : BitVec 12),
    (∀ v, decodeWord v (imm ++ rs1 ++ 0b010#3 ++ rd ++ 0b0000011#7) = .ok (.lw rd rs1 imm)) ∧
    s.effectiveAddress rs1 imm = BitVec.ofInt 32 (((s.readReg rs1).toNat : Int) + imm.toInt) ∧
    ((s.effectiveAddress rs1 imm).toNat % 4 = 0 → (s.effectiveAddress rs1 imm).toNat ≤ 0x000fffff →
      ∃ t v, exec (.lw rd rs1 imm) s = .next t ∧ WroteReg s t rd v (s.pc + 4#32) ∧
        ∀ k, k < 4 → v.extractLsb' (8 * k) 8 = s.mem.readByte ((s.effectiveAddress rs1 imm).toNat + k))

/-- LW stops on a misaligned address first, then on one above 0x000fffff, and only then; what the hardware does there
is the spec's own decision (D6, D7, D10). -/
def Obligations.LoadStopsOnMisalignedThenOutOfRange : Prop :=
  ∀ (s : State) (rd rs1 : RegNum) (imm : BitVec 12),
    ((s.effectiveAddress rs1 imm).toNat % 4 ≠ 0 →
      exec (.lw rd rs1 imm) s = .fault (.misalignedData (s.effectiveAddress rs1 imm))) ∧
    ((s.effectiveAddress rs1 imm).toNat % 4 = 0 → 0x000fffff < (s.effectiveAddress rs1 imm).toNat →
      exec (.lw rd rs1 imm) s = .fault (.addressOutOfRange (s.effectiveAddress rs1 imm)))

/-- SW stores the four bytes of `x[rs2]`, little endian, at the effective address, and changes no other byte, no
register and nothing else but the pc. The last hypothesis is the model's SMC_POLICY (log 11): it holds of every
address under `coherent`, and under `refuse` of every address in no range of the program text (log 12). -/
def Obligations.StoreChangesExactlyItsFourBytes : Prop :=
  ∀ (s : State) (rs2 rs1 : RegNum) (imm : BitVec 12),
    (∀ v, decodeWord v (imm.extractLsb' 5 7 ++ rs2 ++ rs1 ++ 0b010#3 ++ imm.extractLsb' 0 5 ++ 0b0100011#7) =
      .ok (.sw rs2 rs1 imm)) ∧
    s.effectiveAddress rs1 imm = BitVec.ofInt 32 (((s.readReg rs1).toNat : Int) + imm.toInt) ∧
    (s.smc = .coherent → refusesStore s.smc (s.effectiveAddress rs1 imm) = false) ∧
    (∀ text, s.smc = .refuse text →
      (∀ r ∈ text, ¬(4 * r.firstWord ≤ (s.effectiveAddress rs1 imm).toNat ∧
        (s.effectiveAddress rs1 imm).toNat < 4 * (r.firstWord + r.words))) →
      refusesStore s.smc (s.effectiveAddress rs1 imm) = false) ∧
    ((s.effectiveAddress rs1 imm).toNat % 4 = 0 → (s.effectiveAddress rs1 imm).toNat ≤ 0x000fffff →
      refusesStore s.smc (s.effectiveAddress rs1 imm) = false →
      ∃ t, exec (.sw rs2 rs1 imm) s = .next t ∧
        (∀ k, k < 4 → t.mem.readByte ((s.effectiveAddress rs1 imm).toNat + k) =
          (s.readReg rs2).extractLsb' (8 * k) 8) ∧
        (∀ a, a < (s.effectiveAddress rs1 imm).toNat ∨ (s.effectiveAddress rs1 imm).toNat + 4 ≤ a →
          t.mem.readByte a = s.mem.readByte a) ∧
        SameRegs s t ∧ t.pc = s.pc + 4#32 ∧ SameSetting s t ∧ SameFifos s t ∧ t.statsEn = s.statsEn)

/-- SW stops on a misaligned address first, then on one above 0x000fffff (D6, D7, D10), then, under SMC_POLICY =
refuse only, inside the program text (D23; the text's ranges are the model's form, log 12). -/
def Obligations.StoreStopsOnMisalignedThenOutOfRangeThenText : Prop :=
  ∀ (s : State) (rs2 rs1 : RegNum) (imm : BitVec 12),
    ((s.effectiveAddress rs1 imm).toNat % 4 ≠ 0 →
      exec (.sw rs2 rs1 imm) s = .fault (.misalignedData (s.effectiveAddress rs1 imm))) ∧
    ((s.effectiveAddress rs1 imm).toNat % 4 = 0 → 0x000fffff < (s.effectiveAddress rs1 imm).toNat →
      exec (.sw rs2 rs1 imm) s = .fault (.addressOutOfRange (s.effectiveAddress rs1 imm))) ∧
    (∀ text r, (s.effectiveAddress rs1 imm).toNat % 4 = 0 → (s.effectiveAddress rs1 imm).toNat ≤ 0x000fffff →
      s.smc = .refuse text → r ∈ text → 4 * r.firstWord ≤ (s.effectiveAddress rs1 imm).toNat →
      (s.effectiveAddress rs1 imm).toNat < 4 * (r.firstWord + r.words) →
      exec (.sw rs2 rs1 imm) s = .refused (.storeToText (s.effectiveAddress rs1 imm)))

/-- A LW of the effective address of the SW before it completes with the stored word, whatever base and offset give
the address. -/
def Obligations.LoadAfterStoreReturnsTheStoredWord : Prop :=
  ∀ (s t : State) (rs2 rs1 rb rd : RegNum) (imm imm' : BitVec 12),
    exec (.sw rs2 rs1 imm) s = .next t → t.effectiveAddress rb imm' = s.effectiveAddress rs1 imm →
    ∃ u, exec (.lw rd rb imm') t = .next u ∧ WroteReg t u rd (s.readReg rs2) (t.pc + 4#32)

/-- A fetch of a word stored before, with no other store between, fetches the stored word (the derived reading of
20_memory.md, instruction-fetch coherence; a store the policy admits). -/
def Obligations.FetchAfterStoreSeesTheStoredWord : Prop :=
  ∀ (s t u : State) (rs2 rs1 : RegNum) (imm : BitVec 12),
    exec (.sw rs2 rs1 imm) s = .next t → u.mem = t.mem → u.pc = s.effectiveAddress rs1 imm →
    u.fetch = .ok (s.readReg rs2)

/-- Every content of the 1 MB is a canonical memory, so that a statement about every state covers every MEM_IMAGE. -/
def Obligations.EveryMemoryImageIsACanonicalMemory : Prop :=
  ∀ image : Nat → Byte, ∃ m : Memory, m.wf = true ∧ ∀ a, a < 0x100000 → m.readByte a = image a

/-- Canonical memories that read alike are the same data: a property of the model's form of memory (log 5). -/
def Obligations.CanonicalMemoriesThatReadAlikeAreEqual : Prop :=
  ∀ m n : Memory, m.wf = true → n.wf = true →
    (∀ a, a < 0x100000 → m.readByte a = n.readByte a) → m = n

/-! ## Jumps and branches -/

/-- R140. -/
def Obligations.JalLinksAndJumpsRelative : Prop :=
  ∀ (s : State) (rd : RegNum) (off : BitVec 21),
    (off.getLsbD 0 = false → ∀ v, decodeWord v (off.extractLsb' 20 1 ++ off.extractLsb' 1 10 ++ off.extractLsb' 11 1 ++
      off.extractLsb' 12 8 ++ rd ++ 0b1101111#7) = .ok (.jal rd off)) ∧
    (∃ t, exec (.jal rd off) s = .next t ∧
      WroteReg s t rd (BitVec.ofNat 32 ((s.pc.toNat + 4) % 2 ^ 32))
        (BitVec.ofInt 32 ((s.pc.toNat : Int) + off.toInt)))

/-- JR goes to the register in TinyRV1 and to the register with bit 0 cleared in TinyRV2, and writes no register
(what TinyRV1 does with an odd value is the spec's own decision, D25). -/
def Obligations.JrJumpsToTheRegister : Prop :=
  ∀ (s : State) (rs1 : RegNum),
    decodeWord .tinyRV1 (0b000000000000#12 ++ rs1 ++ 0b000#3 ++ 0b00000#5 ++ 0b1100111#7) = .ok (.jr rs1) ∧
    (∃ t p, exec (.jr rs1) s = .next t ∧ OnlyPc s t p ∧
      ∀ k, p.getLsbD k = (if k = 0 ∧ s.version = .tinyRV2 then false else (s.readReg rs1).getLsbD k))

/-- JALR goes to the sum with bit 0 cleared after the addition, made from the old `x[rs1]` also when `rd = rs1` (D11,
C1; log 20), and links. -/
def Obligations.JalrLinksAndJumpsThroughTheOldRegister : Prop :=
  ∀ (s : State) (rd rs1 : RegNum) (imm : BitVec 12),
    decodeWord .tinyRV2 (imm ++ rs1 ++ 0b000#3 ++ rd ++ 0b1100111#7) = .ok (.jalr rd rs1 imm) ∧
    (∃ t p, exec (.jalr rd rs1 imm) s = .next t ∧
      WroteReg s t rd (BitVec.ofNat 32 ((s.pc.toNat + 4) % 2 ^ 32)) p ∧
      ∀ k, p.getLsbD k = (if k = 0 then false
        else (BitVec.ofInt 32 (((s.readReg rs1).toNat : Int) + imm.toInt)).getLsbD k))

/-- R161. -/
def Obligations.JrIsJalrWithX0AndZero : Prop :=
  ∀ rs1 : RegNum,
    decodeWord .tinyRV2 (0b000000000000#12 ++ rs1 ++ 0b000#3 ++ 0b00000#5 ++ 0b1100111#7) = .ok (.jalr 0#5 rs1 0#12) ∧
    decodeWord .tinyRV1 (0b000000000000#12 ++ rs1 ++ 0b000#3 ++ 0b00000#5 ++ 0b1100111#7) = .ok (.jr rs1) ∧
    (∀ s : State, s.version = .tinyRV2 → exec (.jalr 0#5 rs1 0#12) s = exec (.jr rs1) s) ∧
    (∀ s : State, s.version = .tinyRV1 → (s.readReg rs1).getLsbD 0 = false →
      exec (.jalr 0#5 rs1 0#12) s = exec (.jr rs1) s)

/-- R150, R151. -/
def Obligations.EqualityBranchesChooseBetweenTwoSuccessors : Prop :=
  ∀ (s : State) (rs1 rs2 : RegNum) (off : BitVec 13),
    (off.getLsbD 0 = false →
      decodeWord .tinyRV2 (off.extractLsb' 12 1 ++ off.extractLsb' 5 6 ++ rs2 ++ rs1 ++ 0b000#3 ++ off.extractLsb' 1 4 ++
        off.extractLsb' 11 1 ++ 0b1100011#7) = .ok (.beq rs1 rs2 off) ∧
      ∀ v, decodeWord v (off.extractLsb' 12 1 ++ off.extractLsb' 5 6 ++ rs2 ++ rs1 ++ 0b001#3 ++ off.extractLsb' 1 4 ++
        off.extractLsb' 11 1 ++ 0b1100011#7) = .ok (.bne rs1 rs2 off)) ∧
    (∃ t, exec (.beq rs1 rs2 off) s = .next t ∧
      OnlyPc s t (if ∀ k < 32, (s.readReg rs1).getLsbD k = (s.readReg rs2).getLsbD k
        then BitVec.ofInt 32 ((s.pc.toNat : Int) + off.toInt) else s.pc + 4#32)) ∧
    (∃ t, exec (.bne rs1 rs2 off) s = .next t ∧
      OnlyPc s t (if ∃ k < 32, (s.readReg rs1).getLsbD k ≠ (s.readReg rs2).getLsbD k
        then BitVec.ofInt 32 ((s.pc.toNat : Int) + off.toInt) else s.pc + 4#32))

/-- The four branches of R152 to R155, and what each funct3 of the branch opcode decodes to: the two left over, 010 and
011, are rejected, which is the spec's own decision (D2). -/
def Obligations.OrderBranchesChooseBetweenTwoSuccessors : Prop :=
  ∀ (s : State) (rs1 rs2 : RegNum) (off : BitVec 13),
    (off.getLsbD 0 = false →
      ∀ f3 : BitVec 3, decodeWord .tinyRV2 (off.extractLsb' 12 1 ++ off.extractLsb' 5 6 ++ rs2 ++ rs1 ++ f3 ++
        off.extractLsb' 1 4 ++ off.extractLsb' 11 1 ++ 0b1100011#7) =
        (if f3 = 0b000#3 then .ok (.beq rs1 rs2 off) else if f3 = 0b001#3 then .ok (.bne rs1 rs2 off)
         else if f3 = 0b100#3 then .ok (.blt rs1 rs2 off) else if f3 = 0b101#3 then .ok (.bge rs1 rs2 off)
         else if f3 = 0b110#3 then .ok (.bltu rs1 rs2 off) else if f3 = 0b111#3 then .ok (.bgeu rs1 rs2 off)
         else .error (.notAnInstruction (off.extractLsb' 12 1 ++ off.extractLsb' 5 6 ++ rs2 ++ rs1 ++ f3 ++
           off.extractLsb' 1 4 ++ off.extractLsb' 11 1 ++ 0b1100011#7)))) ∧
    (∃ t, exec (.blt rs1 rs2 off) s = .next t ∧
      OnlyPc s t (if (s.readReg rs1).toInt < (s.readReg rs2).toInt
        then BitVec.ofInt 32 ((s.pc.toNat : Int) + off.toInt) else s.pc + 4#32)) ∧
    (∃ t, exec (.bge rs1 rs2 off) s = .next t ∧
      OnlyPc s t (if (s.readReg rs2).toInt ≤ (s.readReg rs1).toInt
        then BitVec.ofInt 32 ((s.pc.toNat : Int) + off.toInt) else s.pc + 4#32)) ∧
    (∃ t, exec (.bltu rs1 rs2 off) s = .next t ∧
      OnlyPc s t (if (s.readReg rs1).toNat < (s.readReg rs2).toNat
        then BitVec.ofInt 32 ((s.pc.toNat : Int) + off.toInt) else s.pc + 4#32)) ∧
    (∃ t, exec (.bgeu rs1 rs2 off) s = .next t ∧
      OnlyPc s t (if (s.readReg rs2).toNat ≤ (s.readReg rs1).toNat
        then BitVec.ofInt 32 ((s.pc.toNat : Int) + off.toInt) else s.pc + 4#32))

/-- R160. -/
def Obligations.NopOnlyAdvancesThePc : Prop :=
  (∀ v, decodeWord v 0x00000013#32 = .ok (.addi 0#5 0#5 0#12)) ∧
  ∀ s : State, ∃ t, exec (.addi 0#5 0#5 0#12) s = .next t ∧ OnlyPc s t (s.pc + 4#32)

/-! ## CSRs and the FIFOs -/

/-- CSRR of each readable CSR: mngr2proc gives up its head, also when `rd` is x0; the others only give their value
(stats_en as plain storage is the spec's own decision, D16). -/
def Obligations.CsrrReadsEachReadableCsr : Prop :=
  ∀ (s : State) (rd : RegNum),
    (∀ csr : CsrNum, decodeWord .tinyRV2 (csr ++ 0b00000#5 ++ 0b010#3 ++ rd ++ 0b1110011#7) = .ok (.csrr rd csr)) ∧
    (∀ w rest, s.m2p = w :: rest →
      ∃ t, exec (.csrr rd 0xfc0#12) s = .next t ∧ WroteReg { s with m2p := rest } t rd w (s.pc + 4#32)) ∧
    (∃ t, exec (.csrr rd 0x7c1#12) s = .next t ∧ WroteReg s t rd s.statsEn (s.pc + 4#32)) ∧
    (∃ t, exec (.csrr rd 0xfc1#12) s = .next t ∧ WroteReg s t rd s.numCores (s.pc + 4#32)) ∧
    (∃ t, exec (.csrr rd 0xf14#12) s = .next t ∧ WroteReg s t rd s.coreId (s.pc + 4#32))

/-- CSRR stops on proc2mngr, whose read the source calls undefined, and on every number that names no CSR; that it
stops with a fault is the spec's own decision (D4, D5). -/
def Obligations.CsrrStopsOnProc2mngrAndOnNoCsr : Prop :=
  ∀ (s : State) (rd : RegNum),
    exec (.csrr rd 0x7c0#12) s = .fault (.undefinedCsrAccess 0x7c0#12 .read) ∧
    (∀ csr : CsrNum, csr ∉ [0x7c0#12, 0x7c1#12, 0xfc0#12, 0xfc1#12, 0xf14#12] →
      exec (.csrr rd csr) s = .fault (.illegalCsr csr))

/-- CSRW of each writable CSR: proc2mngr, when ready, gets all 32 bits at its tail; stats_en stores all 32 bits; no
general register is written (D16, D20). -/
def Obligations.CsrwWritesEachWritableCsr : Prop :=
  ∀ (s : State) (rs1 : RegNum),
    (∀ csr : CsrNum, decodeWord .tinyRV2 (csr ++ rs1 ++ 0b001#3 ++ 0b00000#5 ++ 0b1110011#7) = .ok (.csrw csr rs1)) ∧
    (s.p2mReady = true → ∃ t, exec (.csrw 0x7c0#12 rs1) s = .next t ∧
      OnlyPc { s with p2m := s.p2m ++ [s.readReg rs1], sent := s.sent ++ [s.readReg rs1] } t (s.pc + 4#32)) ∧
    (∃ t, exec (.csrw 0x7c1#12 rs1) s = .next t ∧
      OnlyPc { s with statsEn := s.readReg rs1 } t (s.pc + 4#32))

/-- CSRW stops on the three CSRs whose write the source calls undefined and on every number that names no CSR; that
it stops with a fault is the spec's own decision (D4, D5). -/
def Obligations.CsrwStopsOnReadOnlyAndOnNoCsr : Prop :=
  ∀ (s : State) (rs1 : RegNum),
    exec (.csrw 0xfc0#12 rs1) s = .fault (.undefinedCsrAccess 0xfc0#12 .write) ∧
    exec (.csrw 0xfc1#12 rs1) s = .fault (.undefinedCsrAccess 0xfc1#12 .write) ∧
    exec (.csrw 0xf14#12 rs1) s = .fault (.undefinedCsrAccess 0xf14#12 .write) ∧
    (∀ csr : CsrNum, csr ∉ [0x7c0#12, 0x7c1#12, 0xfc0#12, 0xfc1#12, 0xf14#12] →
      exec (.csrw csr rs1) s = .fault (.illegalCsr csr))

/-- A CSRR of mngr2proc with its FIFO empty and a CSRW of proc2mngr while that is not ready change nothing at all,
the pc included (a hold as a next state is the model's form, log 10). -/
def Obligations.HeldCsrAccessChangesNothing : Prop :=
  ∀ s : State,
    (s.m2p = [] → ∀ rd, exec (.csrr rd 0xfc0#12) s = .next s) ∧
    (s.p2mReady = false → ∀ rs1, exec (.csrw 0x7c0#12 rs1) s = .next s)

/-- With no move of the manager to come, a core held at either FIFO stays in the same state for ever (the
model's form of the manager and of a hold, logs 9, 10). -/
def Obligations.HeldForEverWithoutTheManager : Prop :=
  ∀ (s : State) (w : Word) (i : Instr),
    s.fetch = .ok w → decodeWord s.version w = .ok i → s.manager = [] →
    ((∃ rd, i = .csrr rd 0xfc0#12) ∧ s.m2p = [] ∨ (∃ rs1, i = .csrw 0x7c0#12 rs1) ∧ s.p2mReady = false) →
    ∀ k, core.run k s = .next s

/-- A CSRR held on the empty mngr2proc FIFO completes at the step after the turn in which the manager enqueues, with
the first word enqueued (the turn is the model's form, log 9). -/
def Obligations.HoldIsLiftedByTheManagersWord : Prop :=
  ∀ (s : State) (w : Word) (rd : RegNum) (v : Word) (vs : List Word) (n : Nat) (b : Bool) (rest : List ManagerTurn),
    s.fetch = .ok w → decodeWord s.version w = .ok (.csrr rd 0xfc0#12) → s.m2p = [] →
    s.manager = ⟨v :: vs, n, b⟩ :: rest →
    ∃ t u, step s = .next t ∧ t.pc = s.pc ∧ SameRegs s t ∧ t.m2p = v :: vs ∧
      step t = .next u ∧ u.pc = s.pc + 4#32 ∧ u.readReg rd = (if rd = 0#5 then 0#32 else v) ∧
      SameRegsBut rd s u ∧ ∃ more, u.m2p = vs ++ more

/-- What the core has sent only grows, in order, along every run. -/
def Obligations.OutputOnlyGrowsAlongARun : Prop :=
  ∀ (k : Nat) (s t : State), core.run k s = .next t → s.sent <+: t.sent

/-! ## The whole machine -/

/-- Every instruction but the nine that say where the pc goes moves it on by 4 (R4), unless it is held, which leaves
the state as it was (a hold as a next state is the model's form, log 10). -/
def Obligations.PcAdvancesByFourUnlessSaidOtherwise : Prop :=
  ∀ (i : Instr) (s t : State), exec i s = .next t → transfersControl i = false →
    (isHeld i s = false → t.pc = s.pc + 4#32) ∧ (isHeld i s = true → t = s)

/-- What each kind of state can be changed by: memory by SW alone, stats_en by CSRW of stats_en alone, mngr2proc by
CSRR of it alone, proc2mngr and the output by CSRW of it alone; the parameters, the readiness and the manager's turns
by no instruction. -/
def Obligations.EachKindOfStateHasOneWriter : Prop :=
  ∀ (i : Instr) (s t : State), exec i s = .next t →
    SameSetting s t ∧ t.p2mReady = s.p2mReady ∧
    ((∀ rs2 rs1 imm, i ≠ .sw rs2 rs1 imm) → SameMemory s t) ∧
    ((∀ rs1, i ≠ .csrw 0x7c1#12 rs1) → t.statsEn = s.statsEn) ∧
    ((∀ rd, i ≠ .csrr rd 0xfc0#12) → t.m2p = s.m2p) ∧
    ((∀ rs1, i ≠ .csrw 0x7c0#12 rs1) → t.p2m = s.p2m ∧ t.sent = s.sent)

/-- No instruction but CSRR, CSRW, LW and SW stops, each with its own faults only, and the one refusal needs SMC_POLICY
= refuse (which faults is the spec's own decision, D4 to D7, D23). -/
def Obligations.OnlyCsrAndMemoryInstructionsStop : Prop :=
  ∀ (i : Instr) (s : State),
    (∀ f, exec i s = .fault f →
      (∃ rd csr, i = .csrr rd csr ∧ (f = .illegalCsr csr ∨ f = .undefinedCsrAccess csr .read)) ∨
      (∃ csr rs1, i = .csrw csr rs1 ∧ (f = .illegalCsr csr ∨ f = .undefinedCsrAccess csr .write)) ∨
      (∃ r rs1 imm, (i = .lw r rs1 imm ∨ i = .sw r rs1 imm) ∧
        (f = .misalignedData (s.effectiveAddress rs1 imm) ∨ f = .addressOutOfRange (s.effectiveAddress rs1 imm)))) ∧
    (∀ r, exec i s = .refused r →
      ∃ rs2 rs1 imm, i = .sw rs2 rs1 imm ∧ r = .storeToText (s.effectiveAddress rs1 imm) ∧ s.smc ≠ .coherent)

/-- Under SMC_POLICY = coherent, the policy at reset (log 11), no run is ever refused. -/
def Obligations.CoherentRunsAreNeverRefused : Prop :=
  ∀ (k : Nat) (s : State) (r : Refusal), s.smc = .coherent → core.run k s ≠ .refused r

/-- The reset state is a launch state with the invariant, x0 zero, nothing sent, and the single core's identity (the
identity is D26; log 6). -/
def Obligations.ResetStateMeetsTheInvariant : Prop :=
  Inv State.reset ∧ Launch State.reset ∧ State.reset.readReg 0#5 = 0#32 ∧ State.reset.coreId = 0#32 ∧
  State.reset.numCores = 1#32

/-- Every step keeps the invariant: memory canonical and inside the 1 MB, what waits in proc2mngr an end of what was
sent, CORE_ID less than NUM_CORES (D26), and under TinyRV2 the pc even. -/
def Obligations.EveryStepKeepsTheInvariant : Prop :=
  ∀ s t : State, Inv s → step s = .next t → Inv t

/-- A TinyRV1 run that is not at its end runs identically on TinyRV2: JR's two meanings differ only on a target that
the next fetch rejects (D8, D25: the spec's own decisions). -/
def Obligations.TinyRV1RunsAreTinyRV2Runs : Prop :=
  ∀ (k : Nat) (s t u : State), s.version = .tinyRV1 → core.run k s = .next t → step t = .next u →
    core.run k ({ s with version := .tinyRV2 } : State) = .next ({ t with version := .tinyRV2 } : State)

/-- The value of stats_en has no effect on any other state: a step that does not read it answers the same whatever it
holds, stats_en itself apart (D16, the spec's own decision). -/
def Obligations.StatsEnAffectsNothingElse : Prop :=
  ∀ (s : State) (x : Word),
    (∀ w rd, s.fetch = .ok w → decodeWord s.version w ≠ .ok (.csrr rd 0x7c1#12)) →
    (∀ t, step s = .next t → ∃ y, step { s with statsEn := x } = .next { t with statsEn := y }) ∧
    (∀ f, step s = .fault f → step { s with statsEn := x } = .fault f) ∧
    (∀ r, step s = .refused r → step { s with statsEn := x } = .refused r)

/-- How a run ends, exactly: it faults or is refused in the state before the step that does so, with END_OF_RUN in no
state up to that one; it ends in the first state at END_OF_RUN, which is not executed; else it is unfinished after its
`k` steps, with END_OF_RUN in no state of it (the form of a run is the model's, log 16, log 19). -/
def Obligations.FaultedRunsStopBeforeTheFaultingStep : Prop :=
  ∀ (endOfRun : State → Bool) (k : Nat) (s t : State),
    (∀ f, runUntil endOfRun k s = .faulted f t ↔
      step t = .fault f ∧ ∃ j, j < k ∧ core.run j s = .next t ∧
        ∀ (m : Nat) (u : State), m ≤ j → core.run m s = .next u → endOfRun u = false) ∧
    (∀ r, runUntil endOfRun k s = .refused r t ↔
      step t = .refused r ∧ ∃ j, j < k ∧ core.run j s = .next t ∧
        ∀ (m : Nat) (u : State), m ≤ j → core.run m s = .next u → endOfRun u = false) ∧
    (runUntil endOfRun k s = .ended t ↔
      endOfRun t = true ∧ ∃ j, j ≤ k ∧ core.run j s = .next t ∧
        ∀ (m : Nat) (u : State), m < j → core.run m s = .next u → endOfRun u = false) ∧
    (runUntil endOfRun k s = .unfinished t ↔
      core.run k s = .next t ∧ ∀ (m : Nat) (u : State), m ≤ k → core.run m s = .next u → endOfRun u = false)
end

