-- ==== Sys2Proof/Laws/Decode.lean ====
section
/-! SUPPORT. The decoder's table and the encoder's formats: which row a word decodes by, what each field of an
encoded word reads as, what the fixed bits of a format are, and that a word is made of its fields. -/

namespace Sys2Proof

/-! The table. -/

/-- Two rows cannot match one word: a bit fixed in both differs, or no version has both. -/
def OpcodeRow.excludes (a b : OpcodeRow) : Bool :=
  (a.pattern ^^^ b.pattern) &&& (a.mask &&& b.mask) != 0#32 ||
    !(a.inRV1 && b.inRV1 || a.inRV2 && b.inRV2)

/-- R62: no two rows of a version's table match the same word. -/
theorem opcodeTable_pairwise_excludes : opcodeTable.Pairwise (fun a b => a.excludes b = true) := by
  decide

theorem OpcodeRow.excludes_spec {a b : OpcodeRow} (h : a.excludes b = true) (v : IsaVersion) (w : Word) :
    ¬((a.inVersion v && a.matchesWord w) = true ∧ (b.inVersion v && b.matchesWord w) = true) := by
  rintro ⟨ha, hb⟩
  simp only [Bool.and_eq_true, OpcodeRow.matchesWord, beq_iff_eq] at ha hb
  obtain ⟨hva, ha⟩ := ha
  obtain ⟨hvb, hb⟩ := hb
  simp only [OpcodeRow.excludes, Bool.or_eq_true, bne_iff_ne, ne_eq, Bool.not_eq_true'] at h
  rcases h with h | h
  · apply h
    rw [← ha, ← hb]
    apply BitVec.eq_of_getLsbD_eq
    intro i _
    simp only [BitVec.getLsbD_and, BitVec.getLsbD_xor, BitVec.getLsbD_zero]
    cases w.getLsbD i <;> cases a.mask.getLsbD i <;> cases b.mask.getLsbD i <;> rfl
  · cases v <;> simp [OpcodeRow.inVersion] at hva hvb <;> simp [hva, hvb] at h

/-- In a list whose members exclude each other, the one that satisfies the test is the one found. -/
theorem find?_of_pairwise {α : Type} {p : α → Bool} {l : List α} {r : α}
    (h : l.Pairwise (fun a b => ¬(p a = true ∧ p b = true))) (hr : r ∈ l) (hp : p r = true) :
    l.find? p = some r := by
  induction l with
  | nil => cases hr
  | cons a l ih =>
    rw [List.pairwise_cons] at h
    rcases List.mem_cons.mp hr with rfl | hmem
    · simp [hp]
    · have : p a = false := by
        cases hpa : p a with
        | false => rfl
        | true => exact absurd ⟨hpa, hp⟩ (h.1 r hmem)
      simp [this, ih h.2 hmem]

/-- A word that has a row's fixed bits is that row's instruction (R62). -/
theorem decodeWord_of_row {v : IsaVersion} {w : Word} {r : OpcodeRow} (hr : r ∈ opcodeTable)
    (hv : r.inVersion v = true) (hm : w &&& r.mask = r.pattern) :
    decodeWord v w = .ok (r.build w) := by
  have hp : (r.inVersion v && r.matchesWord w) = true := by
    simp [hv, OpcodeRow.matchesWord, hm]
  have : opcodeTable.find? (fun r => r.inVersion v && r.matchesWord w) = some r :=
    find?_of_pairwise
      (opcodeTable_pairwise_excludes.imp fun h => OpcodeRow.excludes_spec h v w) hr hp
  simp [decodeWord, this]

/-- A decoded word has the fixed bits of a row of the version's table, and is that row's instruction. -/
theorem decodeWord_ok {v : IsaVersion} {w : Word} {i : Instr} (h : decodeWord v w = .ok i) :
    ∃ r ∈ opcodeTable, r.inVersion v = true ∧ w &&& r.mask = r.pattern ∧ i = r.build w := by
  unfold decodeWord at h
  split at h
  · next r hf =>
    have hp := List.find?_some hf
    simp only [Bool.and_eq_true, OpcodeRow.matchesWord, beq_iff_eq] at hp
    exact ⟨r, List.mem_of_find?_eq_some hf, hp.1, hp.2, by cases h; rfl⟩
  · cases h

/-- A word is rejected exactly when it has the fixed bits of no row (R70). -/
theorem decodeWord_error_iff {v : IsaVersion} {w : Word} :
    decodeWord v w = .error (.notAnInstruction w) ↔
      ∀ r ∈ opcodeTable, r.inVersion v = true → w &&& r.mask ≠ r.pattern := by
  unfold decodeWord
  cases hf : opcodeTable.find? (fun r => r.inVersion v && r.matchesWord w) with
  | none =>
    simp only [true_iff]
    intro r hr hv hm
    have := List.find?_eq_none.mp hf r hr
    simp [hv, OpcodeRow.matchesWord, hm] at this
  | some r =>
    have hp := List.find?_some hf
    simp only [Bool.and_eq_true, OpcodeRow.matchesWord, beq_iff_eq] at hp
    simp only [reduceCtorEq, false_iff]
    intro hall
    exact hall r (List.mem_of_find?_eq_some hf) hp.1 hp.2

/-! Fields of a masked word. -/

theorem extract_and (w m : Word) (lo n : Nat) :
    (w &&& m).extractLsb' lo n = w.extractLsb' lo n &&& m.extractLsb' lo n := by
  apply BitVec.eq_of_getLsbD_eq
  intro i hi
  simp [hi]

/-! What each field of an encoded word reads as. -/

section Fields
variable (f7 : BitVec 7) (rs2 rs1 : RegNum) (f3 : BitVec 3) (rd : RegNum) (op : BitVec 7)
variable (imm : BitVec 12) (u : BitVec 20) (off : BitVec 13) (j : BitVec 21)

theorem rdOf_rWord : rdOf (rWord f7 rs2 rs1 f3 rd op) = rd := by
  apply BitVec.eq_of_getLsbD_eq; intro i hi
  interval_cases i <;>
    simp only [rdOf, rWord, BitVec.getLsbD_append, BitVec.getLsbD_extractLsb'] <;> simp

theorem rs1Of_rWord : rs1Of (rWord f7 rs2 rs1 f3 rd op) = rs1 := by
  apply BitVec.eq_of_getLsbD_eq; intro i hi
  interval_cases i <;>
    simp only [rs1Of, rWord, BitVec.getLsbD_append, BitVec.getLsbD_extractLsb'] <;> simp

theorem rs2Of_rWord : rs2Of (rWord f7 rs2 rs1 f3 rd op) = rs2 := by
  apply BitVec.eq_of_getLsbD_eq; intro i hi
  interval_cases i <;>
    simp only [rs2Of, rWord, BitVec.getLsbD_append, BitVec.getLsbD_extractLsb'] <;> simp

theorem shamtOf_rWord : shamtOf (rWord f7 rs2 rs1 f3 rd op) = rs2 := rs2Of_rWord f7 rs2 rs1 f3 rd op

theorem rdOf_iWord : rdOf (iWord imm rs1 f3 rd op) = rd := by
  apply BitVec.eq_of_getLsbD_eq; intro i hi
  interval_cases i <;>
    simp only [rdOf, iWord, BitVec.getLsbD_append, BitVec.getLsbD_extractLsb'] <;> simp

theorem rs1Of_iWord : rs1Of (iWord imm rs1 f3 rd op) = rs1 := by
  apply BitVec.eq_of_getLsbD_eq; intro i hi
  interval_cases i <;>
    simp only [rs1Of, iWord, BitVec.getLsbD_append, BitVec.getLsbD_extractLsb'] <;> simp

theorem immIOf_iWord : immIOf (iWord imm rs1 f3 rd op) = imm := by
  apply BitVec.eq_of_getLsbD_eq; intro i hi
  interval_cases i <;>
    simp only [immIOf, iWord, BitVec.getLsbD_append, BitVec.getLsbD_extractLsb'] <;> simp

theorem csrOf_iWord : csrOf (iWord imm rs1 f3 rd op) = imm := immIOf_iWord rs1 f3 rd op imm

theorem rs1Of_sWord : rs1Of (sWord imm rs2 rs1 f3 op) = rs1 := by
  apply BitVec.eq_of_getLsbD_eq; intro i hi
  interval_cases i <;>
    simp only [rs1Of, sWord, BitVec.getLsbD_append, BitVec.getLsbD_extractLsb'] <;> simp

theorem rs2Of_sWord : rs2Of (sWord imm rs2 rs1 f3 op) = rs2 := by
  apply BitVec.eq_of_getLsbD_eq; intro i hi
  interval_cases i <;>
    simp only [rs2Of, sWord, BitVec.getLsbD_append, BitVec.getLsbD_extractLsb'] <;> simp

theorem immSOf_sWord : immSOf (sWord imm rs2 rs1 f3 op) = imm := by
  apply BitVec.eq_of_getLsbD_eq; intro i hi
  interval_cases i <;>
    simp only [immSOf, sWord, BitVec.getLsbD_append, BitVec.getLsbD_extractLsb'] <;> simp

theorem rs1Of_bWord : rs1Of (bWord off rs2 rs1 f3 op) = rs1 := by
  apply BitVec.eq_of_getLsbD_eq; intro i hi
  interval_cases i <;>
    simp only [rs1Of, bWord, BitVec.getLsbD_append, BitVec.getLsbD_extractLsb'] <;> simp

theorem rs2Of_bWord : rs2Of (bWord off rs2 rs1 f3 op) = rs2 := by
  apply BitVec.eq_of_getLsbD_eq; intro i hi
  interval_cases i <;>
    simp only [rs2Of, bWord, BitVec.getLsbD_append, BitVec.getLsbD_extractLsb'] <;> simp

theorem immBOf_bWord (h : off.getLsbD 0 = false) : immBOf (bWord off rs2 rs1 f3 op) = off := by
  apply BitVec.eq_of_getLsbD_eq; intro i hi
  simp only [BitVec.getLsbD_eq_getElem (show 0 < 13 by omega)] at h
  interval_cases i <;>
    simp only [immBOf, bWord, BitVec.getLsbD_append, BitVec.getLsbD_extractLsb'] <;> simp [h]

theorem rdOf_uWord : rdOf (uWord u rd op) = rd := by
  apply BitVec.eq_of_getLsbD_eq; intro i hi
  interval_cases i <;>
    simp only [rdOf, uWord, BitVec.getLsbD_append, BitVec.getLsbD_extractLsb'] <;> simp

theorem immUOf_uWord : immUOf (uWord u rd op) = u := by
  apply BitVec.eq_of_getLsbD_eq; intro i hi
  interval_cases i <;>
    simp only [immUOf, uWord, BitVec.getLsbD_append, BitVec.getLsbD_extractLsb'] <;> simp

theorem rdOf_jWord : rdOf (jWord j rd op) = rd := by
  apply BitVec.eq_of_getLsbD_eq; intro i hi
  interval_cases i <;>
    simp only [rdOf, jWord, BitVec.getLsbD_append, BitVec.getLsbD_extractLsb'] <;> simp

theorem immJOf_jWord (h : j.getLsbD 0 = false) : immJOf (jWord j rd op) = j := by
  apply BitVec.eq_of_getLsbD_eq; intro i hi
  simp only [BitVec.getLsbD_eq_getElem (show 0 < 21 by omega)] at h
  interval_cases i <;>
    simp only [immJOf, jWord, BitVec.getLsbD_append, BitVec.getLsbD_extractLsb'] <;> simp [h]

/-! The fixed bits of each format: a row's mask keeps them and clears the operands. -/

theorem rWord_and_mask : rWord f7 rs2 rs1 f3 rd op &&& 0xfe00707f#32 = rWord f7 0 0 f3 0 op := by
  apply BitVec.eq_of_getLsbD_eq; intro i hi
  interval_cases i <;>
    simp only [rWord, BitVec.getLsbD_and, BitVec.getLsbD_append] <;> simp

theorem iWord_and_mask : iWord imm rs1 f3 rd op &&& 0x0000707f#32 = iWord 0 0 f3 0 op := by
  apply BitVec.eq_of_getLsbD_eq; intro i hi
  interval_cases i <;>
    simp only [iWord, BitVec.getLsbD_and, BitVec.getLsbD_append] <;> simp

theorem iWord_and_csrrMask : iWord imm rs1 f3 rd op &&& 0x000ff07f#32 = iWord 0 rs1 f3 0 op := by
  apply BitVec.eq_of_getLsbD_eq; intro i hi
  interval_cases i <;>
    simp only [iWord, BitVec.getLsbD_and, BitVec.getLsbD_append] <;> simp

theorem iWord_and_csrwMask : iWord imm rs1 f3 rd op &&& 0x00007fff#32 = iWord 0 0 f3 rd op := by
  apply BitVec.eq_of_getLsbD_eq; intro i hi
  interval_cases i <;>
    simp only [iWord, BitVec.getLsbD_and, BitVec.getLsbD_append] <;> simp

theorem iWord_and_jrMask : iWord imm rs1 f3 rd op &&& 0xfff07fff#32 = iWord imm 0 f3 rd op := by
  apply BitVec.eq_of_getLsbD_eq; intro i hi
  interval_cases i <;>
    simp only [iWord, BitVec.getLsbD_and, BitVec.getLsbD_append] <;> simp

theorem sWord_and_mask : sWord imm rs2 rs1 f3 op &&& 0x0000707f#32 = sWord 0 0 0 f3 op := by
  apply BitVec.eq_of_getLsbD_eq; intro i hi
  interval_cases i <;>
    simp only [sWord, BitVec.getLsbD_and, BitVec.getLsbD_append, BitVec.getLsbD_extractLsb'] <;> simp

theorem bWord_and_mask : bWord off rs2 rs1 f3 op &&& 0x0000707f#32 = bWord 0 0 0 f3 op := by
  apply BitVec.eq_of_getLsbD_eq; intro i hi
  interval_cases i <;>
    simp only [bWord, BitVec.getLsbD_and, BitVec.getLsbD_append, BitVec.getLsbD_extractLsb'] <;> simp

theorem uWord_and_mask : uWord u rd op &&& 0x0000007f#32 = uWord 0 0 op := by
  apply BitVec.eq_of_getLsbD_eq; intro i hi
  interval_cases i <;>
    simp only [uWord, BitVec.getLsbD_and, BitVec.getLsbD_append] <;> simp

theorem jWord_and_mask : jWord j rd op &&& 0x0000007f#32 = jWord 0 0 op := by
  apply BitVec.eq_of_getLsbD_eq; intro i hi
  interval_cases i <;>
    simp only [jWord, BitVec.getLsbD_and, BitVec.getLsbD_append, BitVec.getLsbD_extractLsb'] <;> simp

/-- A JR word is the JALR word with rd = x0 and imm = 0 (R161). -/
theorem jrWord_eq_jalrWord : encode (.jr rs1) = encode (.jalr 0#5 rs1 0#12) := rfl

end Fields

/-! A word is made of its fields. -/

section Reassembly
variable (w : Word)

theorem rWord_fields :
    rWord (funct7Of w) (rs2Of w) (rs1Of w) (funct3Of w) (rdOf w) (opcodeOf w) = w := by
  apply BitVec.eq_of_getLsbD_eq; intro i hi
  interval_cases i <;>
    simp only [rWord, funct7Of, rs2Of, rs1Of, funct3Of, rdOf, opcodeOf, BitVec.getLsbD_append, BitVec.getLsbD_extractLsb'] <;> simp

theorem iWord_fields : iWord (immIOf w) (rs1Of w) (funct3Of w) (rdOf w) (opcodeOf w) = w := by
  apply BitVec.eq_of_getLsbD_eq; intro i hi
  interval_cases i <;>
    simp only [iWord, immIOf, rs1Of, funct3Of, rdOf, opcodeOf, BitVec.getLsbD_append, BitVec.getLsbD_extractLsb'] <;> simp

theorem sWord_fields : sWord (immSOf w) (rs2Of w) (rs1Of w) (funct3Of w) (opcodeOf w) = w := by
  apply BitVec.eq_of_getLsbD_eq; intro i hi
  interval_cases i <;>
    simp only [sWord, immSOf, rs2Of, rs1Of, funct3Of, opcodeOf, BitVec.getLsbD_append, BitVec.getLsbD_extractLsb'] <;> simp

theorem bWord_fields : bWord (immBOf w) (rs2Of w) (rs1Of w) (funct3Of w) (opcodeOf w) = w := by
  apply BitVec.eq_of_getLsbD_eq; intro i hi
  interval_cases i <;>
    simp only [bWord, immBOf, rs2Of, rs1Of, funct3Of, opcodeOf, BitVec.getLsbD_append, BitVec.getLsbD_extractLsb'] <;> simp

theorem uWord_fields : uWord (immUOf w) (rdOf w) (opcodeOf w) = w := by
  apply BitVec.eq_of_getLsbD_eq; intro i hi
  interval_cases i <;>
    simp only [uWord, immUOf, rdOf, opcodeOf, BitVec.getLsbD_append, BitVec.getLsbD_extractLsb'] <;> simp

theorem jWord_fields : jWord (immJOf w) (rdOf w) (opcodeOf w) = w := by
  apply BitVec.eq_of_getLsbD_eq; intro i hi
  interval_cases i <;>
    simp only [jWord, immJOf, rdOf, opcodeOf, BitVec.getLsbD_append, BitVec.getLsbD_extractLsb'] <;> simp

/-- The offset of a decoded branch or JAL is even (R57, R59). -/
theorem immBOf_even : (immBOf w).getLsbD 0 = false := by
  simp only [immBOf, BitVec.getLsbD_append]; simp

theorem immJOf_even : (immJOf w).getLsbD 0 = false := by
  simp only [immJOf, BitVec.getLsbD_append]; simp

end Reassembly

end Sys2Proof
end

