-- ==== Sys2Proof/Laws/Memory.lean ====
section
/-! SUPPORT. Memory: a read after a write to the same place gives what was written, every other place reads as
before, and every operation keeps the canonical form. -/

namespace Sys2Proof.Machine

/-! Reads after writes (they hold of every list, canonical or not). -/

theorem Memory.readByte_putByte (m : Memory) (a x : Nat) (v : Byte) :
    (m.putByte a v).readByte x = if a = x then v else m.readByte x := by
  induction m with
  | nil => simp [Memory.putByte, Memory.readByte]
  | cons c rest ih =>
    obtain ⟨k, b⟩ := c
    simp only [Memory.putByte]
    split
    · simp [Memory.readByte]
    · split
      · subst_vars
        simp only [Memory.readByte]
        split <;> rfl
      · simp only [Memory.readByte, ih]
        by_cases hk : k = x
        · have : a ≠ x := by omega
          simp [hk, this]
        · simp [hk]

theorem Memory.readByte_dropByte (m : Memory) (a x : Nat) :
    (m.dropByte a).readByte x = if a = x then Config.unlistedByte else m.readByte x := by
  induction m with
  | nil => simp [Memory.dropByte, Memory.readByte]
  | cons c rest ih =>
    obtain ⟨k, b⟩ := c
    simp only [Memory.dropByte]
    by_cases hk : k = a
    · subst hk
      simp only [if_true, ih, Memory.readByte]
      split <;> simp_all
    · simp only [hk, if_false, Memory.readByte, ih]
      by_cases hx : k = x
      · have : a ≠ x := fun h => hk (hx.trans h.symm)
        simp [hx, this]
      · simp [hx]

/-- What every byte reads as after a store of one byte. -/
theorem Memory.readByte_writeByte (m : Memory) (a x : Nat) (v : Byte) :
    (m.writeByte a v).readByte x = if a = x then v else m.readByte x := by
  unfold Memory.writeByte
  split
  · subst_vars
    exact Memory.readByte_dropByte m a x
  · exact Memory.readByte_putByte m a x v

/-- What every byte reads as after a store of a word (R31). -/
theorem Memory.readByte_writeWord (m : Memory) (a x : Nat) (v : Word) :
    (m.writeWord a v).readByte x =
      if a ≤ x ∧ x < a + 4 then byteOfWord v (x - a) else m.readByte x := by
  simp only [Memory.writeWord, Memory.readByte_writeByte]
  by_cases h0 : a + 3 = x
  · subst h0; simp
  by_cases h1 : a + 2 = x
  · subst h1; simp
  by_cases h2 : a + 1 = x
  · subst h2; simp
  by_cases h3 : a = x
  · subst h3; simp
  · have : ¬(a ≤ x ∧ x < a + 4) := by omega
    simp [h0, h1, h2, h3, this]

/-- The four bytes of a word make the word. -/
theorem wordOfBytes_byteOfWord (v : Word) :
    wordOfBytes (byteOfWord v 0) (byteOfWord v 1) (byteOfWord v 2) (byteOfWord v 3) = v := by
  apply BitVec.eq_of_getLsbD_eq
  intro i hi
  simp only [wordOfBytes, byteOfWord, BitVec.getLsbD_append, BitVec.getLsbD_extractLsb']
  by_cases h1 : i < 8
  · simp [h1]
  · by_cases h2 : i < 16
    · have : 8 + (i - 8) = i := by omega
      simp [h1, show i - 8 < 8 by omega, this]
    · by_cases h3 : i < 24
      · have : 16 + (i - 8 - 8) = i := by omega
        simp [h1, show ¬ i - 8 < 8 by omega, show i - 8 - 8 < 8 by omega, this]
      · have : 24 + (i - 8 - 8 - 8) = i := by omega
        simp [h1, show ¬ i - 8 < 8 by omega, show ¬ i - 8 - 8 < 8 by omega,
          show i - 8 - 8 - 8 < 8 by omega, this]

/-- A word read where it was stored. -/
theorem Memory.readWord_writeWord (m : Memory) (a : Nat) (v : Word) :
    (m.writeWord a v).readWord a = v := by
  unfold Memory.readWord
  simp only [Memory.readByte_writeWord]
  have h0 : a ≤ a ∧ a < a + 4 := by omega
  have h1 : a ≤ a + 1 ∧ a + 1 < a + 4 := by omega
  have h2 : a ≤ a + 2 ∧ a + 2 < a + 4 := by omega
  have h3 : a ≤ a + 3 ∧ a + 3 < a + 4 := by omega
  simp only [h0, h1, h2, h3, and_self, if_true, Nat.sub_self, Nat.add_sub_cancel_left]
  exact wordOfBytes_byteOfWord v

/-- A word read where no byte was stored. -/
theorem Memory.readWord_writeWord_disjoint (m : Memory) {a x : Nat} (v : Word)
    (h : x + 4 ≤ a ∨ a + 4 ≤ x) : (m.writeWord a v).readWord x = m.readWord x := by
  unfold Memory.readWord
  simp only [Memory.readByte_writeWord]
  have h0 : ¬(a ≤ x ∧ x < a + 4) := by omega
  have h1 : ¬(a ≤ x + 1 ∧ x + 1 < a + 4) := by omega
  have h2 : ¬(a ≤ x + 2 ∧ x + 2 < a + 4) := by omega
  have h3 : ¬(a ≤ x + 3 ∧ x + 3 < a + 4) := by omega
  simp only [h0, h1, h2, h3, if_false]

/-! The canonical form. -/

theorem Memory.risesFrom_cons {lo a : Nat} {b : Byte} {rest : Memory} :
    Memory.risesFrom lo ((a, b) :: rest) = true ↔
      lo ≤ a ∧ a < Config.memoryBytes ∧ b ≠ Config.unlistedByte ∧ Memory.risesFrom (a + 1) rest = true := by
  simp [Memory.risesFrom, and_assoc]

theorem Memory.risesFrom_mono {lo lo' : Nat} {m : Memory} (h : Memory.risesFrom lo' m = true)
    (hle : lo ≤ lo') : Memory.risesFrom lo m = true := by
  cases m with
  | nil => rfl
  | cons c rest =>
    obtain ⟨a, b⟩ := c
    rw [Memory.risesFrom_cons] at h ⊢
    exact ⟨hle.trans h.1, h.2⟩

theorem Memory.putByte_risesFrom {lo a : Nat} {v : Byte} {m : Memory}
    (h : Memory.risesFrom lo m = true) (hlo : lo ≤ a) (ha : a < Config.memoryBytes)
    (hv : v ≠ Config.unlistedByte) : Memory.risesFrom lo (m.putByte a v) = true := by
  induction m generalizing lo with
  | nil => simp [Memory.putByte, hlo, ha, hv, Memory.risesFrom]
  | cons c rest ih =>
    obtain ⟨k, b⟩ := c
    rw [Memory.risesFrom_cons] at h
    simp only [Memory.putByte]
    split
    · rw [Memory.risesFrom_cons, Memory.risesFrom_cons]
      exact ⟨hlo, ha, hv, by omega, h.2⟩
    · split
      · subst_vars
        rw [Memory.risesFrom_cons]
        exact ⟨hlo, ha, hv, h.2.2.2⟩
      · rw [Memory.risesFrom_cons]
        exact ⟨h.1, h.2.1, h.2.2.1, ih h.2.2.2 (by omega)⟩

theorem Memory.dropByte_risesFrom {lo a : Nat} {m : Memory} (h : Memory.risesFrom lo m = true) :
    Memory.risesFrom lo (m.dropByte a) = true := by
  induction m generalizing lo with
  | nil => rfl
  | cons c rest ih =>
    obtain ⟨k, b⟩ := c
    rw [Memory.risesFrom_cons] at h
    simp only [Memory.dropByte]
    split
    · exact ih (Memory.risesFrom_mono h.2.2.2 (by omega))
    · rw [Memory.risesFrom_cons]
      exact ⟨h.1, h.2.1, h.2.2.1, ih h.2.2.2⟩

/-- A store of one byte inside the address space keeps the canonical form. -/
theorem Memory.writeByte_wf {m : Memory} {a : Nat} (v : Byte) (h : m.wf = true)
    (ha : a < Config.memoryBytes) : (m.writeByte a v).wf = true := by
  unfold Memory.writeByte Memory.wf at *
  split
  · exact Memory.dropByte_risesFrom h
  · exact Memory.putByte_risesFrom h (Nat.zero_le _) ha (by assumption)

/-- A store of a word inside the address space keeps the canonical form. -/
theorem Memory.writeWord_wf {m : Memory} {a : Nat} (v : Word) (h : m.wf = true)
    (ha : a + 3 < Config.memoryBytes) : (m.writeWord a v).wf = true := by
  unfold Memory.writeWord
  exact Memory.writeByte_wf _ (Memory.writeByte_wf _ (Memory.writeByte_wf _
    (Memory.writeByte_wf _ h (by omega)) (by omega)) (by omega)) ha

/-- The memory of the reset state is canonical. -/
theorem reset_memory_wf : State.reset.mem.wf = true := rfl

end Sys2Proof.Machine
end

