-- ==== Sys2Proof/Laws/State.lean ====
section
/-! SUPPORT. The small lemmas of the state's updates: one per field per update, and what a register reads as
after each. -/

namespace Sys2Proof.Machine

/-! setPc -/

@[simp] theorem State.setPc_version (s : State) (p : Word) : (s.setPc p).version = s.version := rfl
@[simp] theorem State.setPc_smc (s : State) (p : Word) : (s.setPc p).smc = s.smc := rfl
@[simp] theorem State.setPc_coreId (s : State) (p : Word) : (s.setPc p).coreId = s.coreId := rfl
@[simp] theorem State.setPc_numCores (s : State) (p : Word) : (s.setPc p).numCores = s.numCores := rfl
@[simp] theorem State.setPc_regs (s : State) (p : Word) : (s.setPc p).regs = s.regs := rfl
@[simp] theorem State.setPc_pc (s : State) (p : Word) : (s.setPc p).pc = p := rfl
@[simp] theorem State.setPc_statsEn (s : State) (p : Word) : (s.setPc p).statsEn = s.statsEn := rfl
@[simp] theorem State.setPc_m2p (s : State) (p : Word) : (s.setPc p).m2p = s.m2p := rfl
@[simp] theorem State.setPc_p2m (s : State) (p : Word) : (s.setPc p).p2m = s.p2m := rfl
@[simp] theorem State.setPc_p2mReady (s : State) (p : Word) : (s.setPc p).p2mReady = s.p2mReady := rfl
@[simp] theorem State.setPc_sent (s : State) (p : Word) : (s.setPc p).sent = s.sent := rfl
@[simp] theorem State.setPc_mem (s : State) (p : Word) : (s.setPc p).mem = s.mem := rfl
@[simp] theorem State.setPc_manager (s : State) (p : Word) : (s.setPc p).manager = s.manager := rfl
@[simp] theorem State.setPc_readReg (s : State) (p : Word) (r : RegNum) :
    (s.setPc p).readReg r = s.readReg r := rfl

/-! writeReg -/

@[simp] theorem State.writeReg_zero (s : State) (v : Word) : s.writeReg 0#5 v = s := rfl

theorem State.writeReg_of_ne (s : State) (r : RegNum) (v : Word) (h : r ≠ 0#5) :
    s.writeReg r v =
      { s with regs := s.regs.set (r.toNat - 1) v (by have := r.isLt; omega) } := by
  simp [State.writeReg, h]

@[simp] theorem State.writeReg_version (s : State) (r : RegNum) (v : Word) :
    (s.writeReg r v).version = s.version := by unfold State.writeReg; split <;> rfl
@[simp] theorem State.writeReg_smc (s : State) (r : RegNum) (v : Word) :
    (s.writeReg r v).smc = s.smc := by unfold State.writeReg; split <;> rfl
@[simp] theorem State.writeReg_coreId (s : State) (r : RegNum) (v : Word) :
    (s.writeReg r v).coreId = s.coreId := by unfold State.writeReg; split <;> rfl
@[simp] theorem State.writeReg_numCores (s : State) (r : RegNum) (v : Word) :
    (s.writeReg r v).numCores = s.numCores := by unfold State.writeReg; split <;> rfl
@[simp] theorem State.writeReg_pc (s : State) (r : RegNum) (v : Word) :
    (s.writeReg r v).pc = s.pc := by unfold State.writeReg; split <;> rfl
@[simp] theorem State.writeReg_statsEn (s : State) (r : RegNum) (v : Word) :
    (s.writeReg r v).statsEn = s.statsEn := by unfold State.writeReg; split <;> rfl
@[simp] theorem State.writeReg_m2p (s : State) (r : RegNum) (v : Word) :
    (s.writeReg r v).m2p = s.m2p := by unfold State.writeReg; split <;> rfl
@[simp] theorem State.writeReg_p2m (s : State) (r : RegNum) (v : Word) :
    (s.writeReg r v).p2m = s.p2m := by unfold State.writeReg; split <;> rfl
@[simp] theorem State.writeReg_p2mReady (s : State) (r : RegNum) (v : Word) :
    (s.writeReg r v).p2mReady = s.p2mReady := by unfold State.writeReg; split <;> rfl
@[simp] theorem State.writeReg_sent (s : State) (r : RegNum) (v : Word) :
    (s.writeReg r v).sent = s.sent := by unfold State.writeReg; split <;> rfl
@[simp] theorem State.writeReg_mem (s : State) (r : RegNum) (v : Word) :
    (s.writeReg r v).mem = s.mem := by unfold State.writeReg; split <;> rfl
@[simp] theorem State.writeReg_manager (s : State) (r : RegNum) (v : Word) :
    (s.writeReg r v).manager = s.manager := by unfold State.writeReg; split <;> rfl

/-! readReg -/

@[simp] theorem State.readReg_zero (s : State) : s.readReg 0#5 = 0#32 := rfl

/-- Distinct specifiers other than x0 name distinct places. -/
theorem regIndex_ne {r q : RegNum} (hr : r ≠ 0#5) (hq : q ≠ 0#5) (h : r ≠ q) :
    r.toNat - 1 ≠ q.toNat - 1 := by
  have hr' : r.toNat ≠ 0 := fun e => hr (by apply BitVec.eq_of_toNat_eq; simpa using e)
  have hq' : q.toNat ≠ 0 := fun e => hq (by apply BitVec.eq_of_toNat_eq; simpa using e)
  have h' : r.toNat ≠ q.toNat := fun e => h (BitVec.eq_of_toNat_eq e)
  omega

/-- What every register reads as after a write (R11). -/
theorem State.readReg_writeReg (s : State) (rd r : RegNum) (v : Word) :
    (s.writeReg rd v).readReg r = if r = rd then (if rd = 0#5 then 0#32 else v) else s.readReg r := by
  by_cases h0 : rd = 0#5
  · subst h0
    by_cases h : r = 0#5 <;> simp [h]
  · rw [State.writeReg_of_ne _ _ _ h0]
    by_cases h : r = rd
    · subst h
      simp [State.readReg, h0]
    · by_cases hr : r = 0#5
      · subst hr
        simp [Ne.symm h0, State.readReg]
      · have := regIndex_ne h0 hr (Ne.symm h)
        simp [State.readReg, hr, h, this]

@[simp] theorem State.readReg_writeReg_self (s : State) (rd : RegNum) (v : Word) :
    (s.writeReg rd v).readReg rd = if rd = 0#5 then 0#32 else v := by
  simp [State.readReg_writeReg]

theorem State.readReg_writeReg_ne (s : State) {rd r : RegNum} (v : Word) (h : r ≠ rd) :
    (s.writeReg rd v).readReg r = s.readReg r := by
  simp [State.readReg_writeReg, h]

/-! advance -/

@[simp] theorem State.advance_eq (s : State) : s.advance = s.setPc (s.pc + 4#32) := rfl
@[simp] theorem State.nextPc_eq (s : State) : s.nextPc = s.pc + 4#32 := rfl

/-! managerTurn -/

theorem State.managerTurn_nil (s : State) (h : s.manager = []) : s.managerTurn = s := by
  simp [State.managerTurn, h]

theorem State.managerTurn_cons (s : State) {t : ManagerTurn} {rest : List ManagerTurn}
    (h : s.manager = t :: rest) :
    s.managerTurn = { s with
      manager := rest, m2p := s.m2p ++ t.enqueue, p2m := s.p2m.drop t.dequeue, p2mReady := t.ready } := by
  simp [State.managerTurn, h]

@[simp] theorem State.managerTurn_version (s : State) : s.managerTurn.version = s.version := by
  unfold State.managerTurn; split <;> rfl
@[simp] theorem State.managerTurn_smc (s : State) : s.managerTurn.smc = s.smc := by
  unfold State.managerTurn; split <;> rfl
@[simp] theorem State.managerTurn_coreId (s : State) : s.managerTurn.coreId = s.coreId := by
  unfold State.managerTurn; split <;> rfl
@[simp] theorem State.managerTurn_numCores (s : State) : s.managerTurn.numCores = s.numCores := by
  unfold State.managerTurn; split <;> rfl
@[simp] theorem State.managerTurn_regs (s : State) : s.managerTurn.regs = s.regs := by
  unfold State.managerTurn; split <;> rfl
@[simp] theorem State.managerTurn_pc (s : State) : s.managerTurn.pc = s.pc := by
  unfold State.managerTurn; split <;> rfl
@[simp] theorem State.managerTurn_statsEn (s : State) : s.managerTurn.statsEn = s.statsEn := by
  unfold State.managerTurn; split <;> rfl
@[simp] theorem State.managerTurn_sent (s : State) : s.managerTurn.sent = s.sent := by
  unfold State.managerTurn; split <;> rfl
@[simp] theorem State.managerTurn_mem (s : State) : s.managerTurn.mem = s.mem := by
  unfold State.managerTurn; split <;> rfl
@[simp] theorem State.managerTurn_readReg (s : State) (r : RegNum) :
    s.managerTurn.readReg r = s.readReg r := by
  simp [State.readReg]

/-- What is left in proc2mngr after the manager's turn is an end of what was there. -/
theorem State.managerTurn_p2m (s : State) : s.managerTurn.p2m <:+ s.p2m := by
  unfold State.managerTurn
  split
  · exact List.suffix_refl _
  · exact List.drop_suffix _ _

/-! What the two shared write-backs do. -/

theorem SameSetting.refl (s : State) : SameSetting s s := ⟨rfl, rfl, rfl, rfl, rfl⟩
theorem SameFifos.refl (s : State) : SameFifos s s := ⟨rfl, rfl, rfl, rfl⟩
theorem SameMemory.refl (s : State) : SameMemory s s := fun _ => rfl
theorem SameButRegs.refl (s : State) : SameButRegs s s := ⟨.refl s, .refl s, rfl, .refl s⟩

/-- A register write and a jump change that register and the pc. -/
theorem wroteReg_writeReg_setPc (s : State) (rd : RegNum) (v p : Word) :
    WroteReg s ((s.writeReg rd v).setPc p) rd v p where
  result := by simp
  others := fun r h => by simp [State.readReg_writeReg_ne _ _ h]
  pc     := rfl
  rest   := ⟨⟨by simp, by simp, by simp, by simp, by simp⟩, ⟨by simp, by simp, by simp, by simp⟩,
    by simp, fun a => by simp⟩

/-- Setting the pc changes the pc. -/
theorem onlyPc_setPc (s : State) (p : Word) : OnlyPc s (s.setPc p) p :=
  ⟨fun _ => rfl, rfl, ⟨⟨rfl, rfl, rfl, rfl, rfl⟩, ⟨rfl, rfl, rfl, rfl⟩, rfl, fun _ => rfl⟩⟩

/-- `writeBack` always answers, and says what it wrote. -/
theorem State.writeBack_spec (s : State) (rd : RegNum) (v : Word) :
    ∃ t, s.writeBack rd v = .next t ∧ WroteReg s t rd v (s.pc + 4#32) :=
  ⟨_, rfl, by simpa using wroteReg_writeReg_setPc s rd v (s.pc + 4#32)⟩

/-- `linkTo` always answers: the link register and the target. -/
theorem State.linkTo_spec (s : State) (rd : RegNum) (p : Word) :
    ∃ t, s.linkTo rd p = .next t ∧ WroteReg s t rd (s.pc + 4#32) p :=
  ⟨_, rfl, wroteReg_writeReg_setPc s rd _ p⟩

/-- `branchTo` always answers: one of the two successors. -/
theorem State.branchTo_spec (s : State) (taken : Bool) (p : Word) :
    ∃ t, s.branchTo taken p = .next t ∧ OnlyPc s t (if taken then p else s.pc + 4#32) := by
  cases taken
  · exact ⟨_, rfl, onlyPc_setPc s _⟩
  · exact ⟨_, rfl, onlyPc_setPc s _⟩

end Sys2Proof.Machine
end

