-- ==== Sys2Proof/Laws/Ops.lean ====
section
/-! SUPPORT. One lemma per shared operation: everything it can do. -/

namespace Sys2Proof.Machine

/-! The checks (R32, R35, R36). -/

/-- `a[1:0] = 0` is being a multiple of four. -/
theorem aligned_iff (a : Word) : aligned a = true ↔ a.toNat % 4 = 0 := by
  simp only [aligned, beq_iff_eq]
  constructor
  · intro h
    have := congrArg BitVec.toNat h
    simpa [BitVec.extractLsb'_toNat] using this
  · intro h
    apply BitVec.eq_of_toNat_eq
    simpa [BitVec.extractLsb'_toNat] using h

theorem inRange_iff (a : Word) : inRange a = true ↔ a.toNat ≤ 0x000fffff := by
  unfold inRange Config.memoryBytes
  rw [decide_eq_true_iff]
  omega

/-- The admitted accesses lie inside the address space. -/
theorem aligned_inRange_bound {a : Word} (ha : aligned a = true) (hr : inRange a = true) :
    a.toNat + 3 < Config.memoryBytes := by
  rw [aligned_iff] at ha
  rw [inRange_iff] at hr
  simp only [Config.memoryBytes]
  omega

theorem checkData_cases (a : Word) :
    (aligned a = false ∧ checkData a = .error (.misalignedData a)) ∨
    (aligned a = true ∧ inRange a = false ∧ checkData a = .error (.addressOutOfRange a)) ∨
    (aligned a = true ∧ inRange a = true ∧ checkData a = .ok ()) := by
  unfold checkData
  cases aligned a <;> cases inRange a <;> simp

theorem checkFetch_cases (a : Word) :
    (aligned a = false ∧ checkFetch a = .error (.misalignedFetch a)) ∨
    (aligned a = true ∧ inRange a = false ∧ checkFetch a = .error (.addressOutOfRange a)) ∨
    (aligned a = true ∧ inRange a = true ∧ checkFetch a = .ok ()) := by
  unfold checkFetch
  cases aligned a <;> cases inRange a <;> simp

/-- R47: `coherent` refuses no store, `refuse` exactly those inside the program text. -/
theorem refusesStore_iff (p : SmcPolicy) (a : Word) :
    refusesStore p a = true ↔
      ∃ text, p = .refuse text ∧
        ∃ r ∈ text, 4 * r.firstWord ≤ a.toNat ∧ a.toNat < 4 * (r.firstWord + r.words) := by
  cases p <;> simp [refusesStore, inTextRange]

/-- If a load answers a word, the access was admitted and the word is the one at the address. -/
theorem State.loadWord_ok {s : State} {a v : Word} (h : s.loadWord a = .ok v) :
    aligned a = true ∧ inRange a = true ∧ v = s.mem.readWord a.toNat := by
  unfold State.loadWord at h
  obtain ⟨_, e⟩ | ⟨_, _, e⟩ | ⟨ha, hr, e⟩ := checkData_cases a <;> rw [e] at h <;> simp_all

theorem State.loadWord_of_admitted {s : State} {a : Word} (ha : aligned a = true)
    (hr : inRange a = true) : s.loadWord a = .ok (s.mem.readWord a.toNat) := by
  simp [State.loadWord, checkData, ha, hr]

/-- If a store answers a next state, the access was admitted, the policy allows it, and memory alone has
changed, by that word. -/
theorem State.storeWord_next {s t : State} {a v : Word} (h : s.storeWord a v = .next t) :
    aligned a = true ∧ inRange a = true ∧ refusesStore s.smc a = false ∧
      t = { s with mem := s.mem.writeWord a.toNat v } := by
  unfold State.storeWord at h
  obtain ⟨_, e⟩ | ⟨_, _, e⟩ | ⟨ha, hr, e⟩ := checkData_cases a <;> rw [e] at h
  · simp at h
  · simp at h
  · cases hp : refusesStore s.smc a <;> simp_all

theorem State.storeWord_of_admitted {s : State} {a : Word} (v : Word) (ha : aligned a = true)
    (hr : inRange a = true) (hp : refusesStore s.smc a = false) :
    s.storeWord a v = .next { s with mem := s.mem.writeWord a.toNat v } := by
  simp [State.storeWord, checkData, ha, hr, hp]

/-- If the fetch answers a word, pc was admitted and the word is the one at pc. -/
theorem State.fetch_ok {s : State} {w : Word} (h : s.fetch = .ok w) :
    aligned s.pc = true ∧ inRange s.pc = true ∧ w = s.mem.readWord s.pc.toNat := by
  unfold State.fetch at h
  obtain ⟨_, e⟩ | ⟨_, _, e⟩ | ⟨ha, hr, e⟩ := checkFetch_cases s.pc <;> rw [e] at h <;> simp_all

theorem State.fetch_of_admitted {s : State} (ha : aligned s.pc = true) (hr : inRange s.pc = true) :
    s.fetch = .ok (s.mem.readWord s.pc.toNat) := by
  simp [State.fetch, checkFetch, ha, hr]

/-! CSRs (R16 to R22). -/

/-- The five numbers, and no other (R16, R17). -/
theorem csrOfNumber_cases (n : CsrNum) :
    (n = 0x7c0#12 ∧ csrOfNumber n = some .proc2mngr) ∨ (n = 0xfc0#12 ∧ csrOfNumber n = some .mngr2proc) ∨
    (n = 0xf14#12 ∧ csrOfNumber n = some .coreid) ∨ (n = 0xfc1#12 ∧ csrOfNumber n = some .numcores) ∨
    (n = 0x7c1#12 ∧ csrOfNumber n = some .statsEn) ∨
    (n ≠ 0x7c0#12 ∧ n ≠ 0xfc0#12 ∧ n ≠ 0xf14#12 ∧ n ≠ 0xfc1#12 ∧ n ≠ 0x7c1#12 ∧ csrOfNumber n = none) := by
  by_cases h1 : n = 0x7c0#12
  · subst h1; exact .inl ⟨rfl, rfl⟩
  by_cases h2 : n = 0xfc0#12
  · subst h2; exact .inr (.inl ⟨rfl, rfl⟩)
  by_cases h3 : n = 0xf14#12
  · subst h3; exact .inr (.inr (.inl ⟨rfl, rfl⟩))
  by_cases h4 : n = 0xfc1#12
  · subst h4; exact .inr (.inr (.inr (.inl ⟨rfl, rfl⟩)))
  by_cases h5 : n = 0x7c1#12
  · subst h5; exact .inr (.inr (.inr (.inr (.inl ⟨rfl, rfl⟩))))
  · refine .inr (.inr (.inr (.inr (.inr ⟨h1, h2, h3, h4, h5, ?_⟩))))
    simp [csrOfNumber, csrNumber, Ne.symm h1, Ne.symm h2, Ne.symm h3, Ne.symm h4, Ne.symm h5]

/-- If a CSR read answers a value, it is one of four, and only mngr2proc changes the state: its head goes. -/
theorem State.csrRead_value {s s' : State} {n : CsrNum} {v : Word} (h : s.csrRead n = .value v s') :
    (n = 0xfc0#12 ∧ ∃ rest, s.m2p = v :: rest ∧ s' = { s with m2p := rest }) ∨
    (n = 0xf14#12 ∧ v = s.coreId ∧ s' = s) ∨ (n = 0xfc1#12 ∧ v = s.numCores ∧ s' = s) ∨
    (n = 0x7c1#12 ∧ v = s.statsEn ∧ s' = s) := by
  unfold State.csrRead at h
  obtain ⟨hn, e⟩ | ⟨hn, e⟩ | ⟨hn, e⟩ | ⟨hn, e⟩ | ⟨hn, e⟩ | ⟨_, _, _, _, _, e⟩ := csrOfNumber_cases n <;>
    simp only [e] at h
  · cases h
  · split at h
    · cases h
    · cases h; exact .inl ⟨hn, _, by assumption, rfl⟩
  · cases h; exact .inr (.inl ⟨hn, rfl, rfl⟩)
  · cases h; exact .inr (.inr (.inl ⟨hn, rfl, rfl⟩))
  · cases h; exact .inr (.inr (.inr ⟨hn, rfl, rfl⟩))
  · cases h

/-- A CSR read holds exactly when it reads mngr2proc with its FIFO empty (R18). -/
theorem State.csrRead_hold {s : State} {n : CsrNum} :
    s.csrRead n = .hold ↔ n = 0xfc0#12 ∧ s.m2p = [] := by
  unfold State.csrRead
  obtain ⟨hn, e⟩ | ⟨hn, e⟩ | ⟨hn, e⟩ | ⟨hn, e⟩ | ⟨hn, e⟩ | ⟨_, h2, _, _, _, e⟩ := csrOfNumber_cases n <;>
    simp only [e]
  · simp [hn]
  · cases hm : s.m2p <;> simp [hn]
  · simp [hn]
  · simp [hn]
  · simp [hn]
  · simp [h2]

/-- If a CSR write is done, it went to proc2mngr, which was ready, or to stats_en. -/
theorem State.csrWrite_done {s s' : State} {n : CsrNum} {v : Word} (h : s.csrWrite n v = .done s') :
    (n = 0x7c0#12 ∧ s.p2mReady = true ∧ s' = { s with p2m := s.p2m ++ [v], sent := s.sent ++ [v] }) ∨
    (n = 0x7c1#12 ∧ s' = { s with statsEn := v }) := by
  unfold State.csrWrite at h
  obtain ⟨hn, e⟩ | ⟨hn, e⟩ | ⟨hn, e⟩ | ⟨hn, e⟩ | ⟨hn, e⟩ | ⟨_, _, _, _, _, e⟩ := csrOfNumber_cases n <;>
    simp only [e] at h
  · split at h
    · cases h; exact .inl ⟨hn, by assumption, rfl⟩
    · cases h
  · cases h
  · cases h
  · cases h
  · cases h; exact .inr ⟨hn, rfl⟩
  · cases h

/-- A CSR write holds exactly when it writes proc2mngr while that is not ready (R19). -/
theorem State.csrWrite_hold {s : State} {n : CsrNum} {v : Word} :
    s.csrWrite n v = .hold ↔ n = 0x7c0#12 ∧ s.p2mReady = false := by
  unfold State.csrWrite
  obtain ⟨hn, e⟩ | ⟨hn, e⟩ | ⟨hn, e⟩ | ⟨hn, e⟩ | ⟨hn, e⟩ | ⟨h1, _, _, _, _, e⟩ := csrOfNumber_cases n <;>
    simp only [e]
  · cases hr : s.p2mReady <;> simp [hn]
  · simp [hn]
  · simp [hn]
  · simp [hn]
  · simp [hn]
  · simp [h1]

/-! The operands (R55 to R59, R104). -/

@[simp] theorem immValue_toInt (imm : BitVec 12) : (immValue imm).toInt = imm.toInt :=
  BitVec.toInt_signExtend_of_le (by decide)

@[simp] theorem branchValue_toInt (offset : BitVec 13) : (branchValue offset).toInt = offset.toInt :=
  BitVec.toInt_signExtend_of_le (by decide)

@[simp] theorem jumpValue_toInt (offset : BitVec 21) : (jumpValue offset).toInt = offset.toInt :=
  BitVec.toInt_signExtend_of_le (by decide)

@[simp] theorem upperValue_toNat (imm : BitVec 20) : (upperValue imm).toNat = imm.toNat * 4096 := by
  have h : (upperValue imm).toNat = imm.toNat <<< 12 ||| (0#12).toNat := BitVec.toNat_append imm 0#12
  simpa [Nat.shiftLeft_eq] using h

@[simp] theorem shiftCount_toNat (v : Word) : (shiftCount v).toNat = v.toNat % 32 := by
  simp [shiftCount, BitVec.extractLsb'_toNat]

@[simp] theorem shiftCount_lt (n : BitVec 5) : n.toNat < 32 := n.isLt

/-- Clearing bit 0 leaves bit 0 clear and the others as they were. -/
theorem clearBit0_getLsbD (t : Word) (i : Nat) :
    (clearBit0 t).getLsbD i = (t.getLsbD i && decide (i ≠ 0)) := by
  have key : ∀ i : Fin 32, (0xfffffffe#32).getLsbD i.val = decide (i.val ≠ 0) := by decide
  simp only [clearBit0, BitVec.getLsbD_and]
  by_cases hi : i < 32
  · rw [key ⟨i, hi⟩]
  · have : t.getLsbD i = false := BitVec.getLsbD_of_ge _ _ (by omega)
    simp [this]

/-- A target whose bit 0 is clear already is kept. -/
theorem clearBit0_of_even {t : Word} (h : t.getLsbD 0 = false) : clearBit0 t = t := by
  apply BitVec.eq_of_getLsbD_eq
  intro i _
  rw [clearBit0_getLsbD]
  by_cases h0 : i = 0
  · subst h0
    simpa using h.symm
  · simp [h0]

end Sys2Proof.Machine
end

