-- ==== Sys2Proof/Laws/Exec.lean ====
section
/-! SUPPORT. What executing an instruction, and a step, can do, said once: if it answers a next state, one of a
few effects happened. Invariants are derived from these two inversions, not by unfolding `exec` again. -/

namespace Sys2Proof.Machine

/-- The branch of two successors that an instruction is, if any: its offset. -/
def branchOffset : Instr → Option (BitVec 13)
  | .beq _ _ off | .bne _ _ off | .blt _ _ off | .bge _ _ off | .bltu _ _ off | .bgeu _ _ off => some off
  | _ => none

/-- Everything an instruction that answers a next state can have done. -/
inductive Effect (i : Instr) (s : State) : State → Prop where
  /-- Held at a FIFO (R184). -/
  | held (h : isHeld i s = true) : Effect i s s
  /-- A register written, the pc moved on. -/
  | wroteBack (rd : RegNum) (v : Word) (ht : transfersControl i = false) :
      Effect i s ((s.writeReg rd v).setPc (s.pc + 4#32))
  /-- CSRR of mngr2proc: the head word consumed (R18). -/
  | dequeued (rd : RegNum) (v : Word) (rest : List Word) (hi : i = .csrr rd 0xfc0#12)
      (hm : s.m2p = v :: rest) :
      Effect i s ((({ s with m2p := rest } : State).writeReg rd v).setPc (s.pc + 4#32))
  /-- CSRW of proc2mngr: one word enqueued (R19). -/
  | enqueued (rs1 : RegNum) (hi : i = .csrw 0x7c0#12 rs1) (hr : s.p2mReady = true) :
      Effect i s (({ s with p2m := s.p2m ++ [s.readReg rs1], sent := s.sent ++ [s.readReg rs1] } : State).setPc
        (s.pc + 4#32))
  /-- CSRW of stats_en (R20). -/
  | wroteStats (rs1 : RegNum) (hi : i = .csrw 0x7c1#12 rs1) :
      Effect i s (({ s with statsEn := s.readReg rs1 } : State).setPc (s.pc + 4#32))
  /-- SW of an admitted address (R131). -/
  | stored (rs2 rs1 : RegNum) (imm : BitVec 12) (hi : i = .sw rs2 rs1 imm)
      (ha : aligned (s.effectiveAddress rs1 imm) = true) (hr : inRange (s.effectiveAddress rs1 imm) = true)
      (hp : refusesStore s.smc (s.effectiveAddress rs1 imm) = false) :
      Effect i s (({ s with mem := s.mem.writeWord (s.effectiveAddress rs1 imm).toNat (s.readReg rs2) } : State).setPc
        (s.pc + 4#32))
  /-- JAL (R140). -/
  | jal (rd : RegNum) (off : BitVec 21) (hi : i = .jal rd off) :
      Effect i s ((s.writeReg rd (s.pc + 4#32)).setPc (s.pc + jumpValue off))
  /-- JALR (R142). -/
  | jalr (rd rs1 : RegNum) (imm : BitVec 12) (hi : i = .jalr rd rs1 imm) :
      Effect i s ((s.writeReg rd (s.pc + 4#32)).setPc (clearBit0 (s.readReg rs1 + immValue imm)))
  /-- JR (R141). -/
  | jr (rs1 : RegNum) (hi : i = .jr rs1) :
      Effect i s (s.setPc (match s.version with
        | .tinyRV1 => s.readReg rs1
        | .tinyRV2 => clearBit0 (s.readReg rs1)))
  /-- A branch, taken or not (R150 to R155). -/
  | branched (off : BitVec 13) (taken : Bool) (hb : branchOffset i = some off) :
      Effect i s (s.setPc (if taken then s.pc + branchValue off else s.pc + 4#32))

theorem effect_of_writeBack {i : Instr} {s t : State} {rd : RegNum} {v : Word}
    (ht : transfersControl i = false) (h : s.writeBack rd v = .next t) : Effect i s t := by
  cases h
  have e : (s.writeReg rd v).advance = (s.writeReg rd v).setPc (s.pc + 4#32) := by simp
  rw [e]
  exact Effect.wroteBack rd v ht

theorem effect_of_branchTo {i : Instr} {s t : State} {off : BitVec 13} {taken : Bool}
    (hb : branchOffset i = some off) (h : s.branchTo taken (s.relative (branchValue off)) = .next t) :
    Effect i s t := by
  cases h
  cases taken
  · exact Effect.branched off false hb
  · exact Effect.branched off true hb

/-- The inversion of CSRR. -/
theorem execCsrr_effect {rd : RegNum} {n : CsrNum} {s t : State} (h : execCsrr rd n s = .next t) :
    Effect (.csrr rd n) s t := by
  unfold execCsrr at h
  split at h
  · next v s' hv =>
    obtain ⟨hn, rest, hm, rfl⟩ | ⟨_, _, rfl⟩ | ⟨_, _, rfl⟩ | ⟨_, _, rfl⟩ := State.csrRead_value hv
    · subst hn
      cases h
      have e : ((({ s with m2p := rest } : State).writeReg rd v).advance) =
        (({ s with m2p := rest } : State).writeReg rd v).setPc (s.pc + 4#32) := by simp
      rw [e]
      exact Effect.dequeued rd v rest rfl hm
    · exact effect_of_writeBack rfl h
    · exact effect_of_writeBack rfl h
    · exact effect_of_writeBack rfl h
  · next hh =>
    cases h
    exact Effect.held (by simp [isHeld, hh])
  · cases h

/-- The inversion of CSRW. -/
theorem execCsrw_effect {n : CsrNum} {rs1 : RegNum} {s t : State} (h : execCsrw n rs1 s = .next t) :
    Effect (.csrw n rs1) s t := by
  unfold execCsrw at h
  split at h
  · next s' hd =>
    obtain ⟨hn, hr, rfl⟩ | ⟨hn, rfl⟩ := State.csrWrite_done hd
    · subst hn
      cases h
      exact Effect.enqueued rs1 rfl hr
    · subst hn
      cases h
      exact Effect.wroteStats rs1 rfl
  · next hh =>
    cases h
    exact Effect.held (by simp [isHeld, hh])
  · cases h

/-- The inversion of LW. -/
theorem execLw_effect {rd rs1 : RegNum} {imm : BitVec 12} {s t : State}
    (h : execLw rd rs1 imm s = .next t) : Effect (.lw rd rs1 imm) s t := by
  unfold execLw at h
  split at h
  · exact effect_of_writeBack rfl h
  · cases h

/-- The inversion of SW. -/
theorem execSw_effect {rs2 rs1 : RegNum} {imm : BitVec 12} {s t : State}
    (h : execSw rs2 rs1 imm s = .next t) : Effect (.sw rs2 rs1 imm) s t := by
  unfold execSw at h
  split at h
  · next s' hs =>
    obtain ⟨ha, hr, hp, rfl⟩ := State.storeWord_next hs
    cases h
    exact Effect.stored rs2 rs1 imm rfl ha hr hp
  · cases h
  · cases h

/-- The inversion of JR. -/
theorem execJr_effect {rs1 : RegNum} {s t : State} (h : execJr rs1 s = .next t) :
    Effect (.jr rs1) s t := by
  have e := Effect.jr (i := .jr rs1) (s := s) rs1 rfl
  unfold execJr at h
  split at h <;> next hv => cases h; rw [hv] at e; exact e

/-- Everything `exec` can do when it answers a next state. -/
theorem exec_effect {i : Instr} {s t : State} (h : exec i s = .next t) : Effect i s t := by
  cases i with
  | csrr rd n => exact execCsrr_effect h
  | csrw n rs1 => exact execCsrw_effect h
  | lw rd rs1 imm => exact execLw_effect h
  | sw rs2 rs1 imm => exact execSw_effect h
  | jr rs1 => exact execJr_effect h
  | jal rd off => cases h; exact Effect.jal rd off rfl
  | jalr rd rs1 imm => cases h; exact Effect.jalr rd rs1 imm rfl
  | beq | bne | blt | bge | bltu | bgeu => exact effect_of_branchTo rfl h
  | add | sub | and | or | xor | slt | sltu | sra | srl | sll | mul | addi | andi | ori | xori | slti | sltiu
  | srai | srli | slli | lui | auipc => exact effect_of_writeBack rfl h

/-- A step that answers a next state fetched and decoded an instruction, executed it, and gave the manager its
turn. -/
theorem step_next {s t : State} (h : step s = .next t) :
    ∃ w i u, s.fetch = .ok w ∧ decodeWord s.version w = .ok i ∧ exec i s = .next u ∧ t = u.managerTurn := by
  unfold step at h
  split at h
  · cases h
  · next w hw =>
    split at h
    · cases h
    · next i hi =>
      unfold afterTurn at h
      split at h
      · next u hu => exact ⟨w, i, u, hw, hi, hu, by cases h; rfl⟩
      · cases h
      · cases h

/-- A step at which an instruction is fetched and decoded is that instruction's execution and the turn. -/
theorem step_of_decoded {s : State} {w : Word} {i : Instr} (hw : s.fetch = .ok w)
    (hi : decodeWord s.version w = .ok i) : step s = afterTurn (exec i s) := by
  simp [step, hw, hi]

/-! Runs. -/

/-- A run of one step more is a step and then the rest of the run. -/
theorem run_succ_next {k : Nat} {s t : State} (h : core.run (k + 1) s = .next t) :
    ∃ u, step s = .next u ∧ core.run k u = .next t := by
  simp only [Host.Core.run] at h
  split at h
  · next u hu => exact ⟨u, hu, h⟩
  · cases h
  · cases h

/-- A run that goes on after a step is the step and then the rest of the run. -/
theorem run_succ_of_step {k : Nat} {s u : State} (h : step s = .next u) :
    core.run (k + 1) s = core.run k u := by
  simp only [Host.Core.run]
  rw [show core.step s = .next u from h]

/-- At END_OF_RUN a run of any length has ended (R190). -/
theorem runUntil_of_end {endOfRun : State → Bool} {s : State} (h : endOfRun s = true) :
    ∀ k, runUntil endOfRun k s = .ended s
  | 0 => by simp [runUntil, h]
  | _ + 1 => by simp [runUntil, h]

/-- Before END_OF_RUN a run is a step and then the rest, or stops in the state before the step. -/
theorem runUntil_succ {endOfRun : State → Bool} {s : State} (h : endOfRun s = false) (k : Nat) :
    runUntil endOfRun (k + 1) s = (match step s with
      | .next t    => runUntil endOfRun k t
      | .fault f   => .faulted f s
      | .refused r => .refused r s) := by
  cases hs : step s <;> simp [runUntil, h, hs]

/-- What every step keeps holds of everything a run reaches. -/
theorem run_induction {P : State → Prop} (hstep : ∀ s t, P s → step s = .next t → P t) :
    ∀ k s t, P s → core.run k s = .next t → P t := by
  intro k
  induction k with
  | zero => intro s t hs h; cases h; exact hs
  | succ k ih =>
    intro s t hs h
    obtain ⟨u, hu, hr⟩ := run_succ_next h
    exact ih u t (hstep s u hs hu) hr

end Sys2Proof.Machine
end

