-- ==== Sys2Proof/Laws/PerInstr.lean ====
section
/-! SUPPORT. One lemma per constructor of `Instr`: the word the encoder writes has the fixed bits of the
instruction's own row of R63, and every version that has the instruction has the row. -/

namespace Sys2Proof

/-- The place of an instruction's row in the table (R63's order). -/
def Instr.rowIndex : Instr → Nat
  | .csrr _ _ => 0
  | .csrw _ _ => 1
  | .add _ _ _ => 2
  | .sub _ _ _ => 3
  | .and _ _ _ => 4
  | .or _ _ _ => 5
  | .xor _ _ _ => 6
  | .slt _ _ _ => 7
  | .sltu _ _ _ => 8
  | .sra _ _ _ => 9
  | .srl _ _ _ => 10
  | .sll _ _ _ => 11
  | .mul _ _ _ => 12
  | .addi _ _ _ => 13
  | .andi _ _ _ => 14
  | .ori _ _ _ => 15
  | .xori _ _ _ => 16
  | .slti _ _ _ => 17
  | .sltiu _ _ _ => 18
  | .srai _ _ _ => 19
  | .srli _ _ _ => 20
  | .slli _ _ _ => 21
  | .lui _ _ => 22
  | .auipc _ _ => 23
  | .lw _ _ _ => 24
  | .sw _ _ _ => 25
  | .jal _ _ => 26
  | .jr _ => 27
  | .jalr _ _ _ => 28
  | .beq _ _ _ => 29
  | .bne _ _ _ => 30
  | .blt _ _ _ => 31
  | .bge _ _ _ => 32
  | .bltu _ _ _ => 33
  | .bgeu _ _ _ => 34

/-- The encoded word fits the instruction's own row. -/
def Laws.EncodeFitsRow.Statement (i : Instr) : Prop :=
  ∃ r, opcodeTable[i.rowIndex]? = some r ∧ encode i &&& r.mask = r.pattern ∧
    ∀ v, i.inVersion v = true → r.inVersion v = true

theorem Laws.EncodeFitsRow.csrr (rd : RegNum) (csr : CsrNum) : Laws.EncodeFitsRow.Statement (.csrr rd csr) :=
  ⟨_, rfl, (iWord_and_csrrMask _ _ _ _ _).trans rfl, fun v h => by cases v; exacts [h, rfl]⟩
theorem Laws.EncodeFitsRow.csrw (csr : CsrNum) (rs1 : RegNum) : Laws.EncodeFitsRow.Statement (.csrw csr rs1) :=
  ⟨_, rfl, (iWord_and_csrwMask _ _ _ _ _).trans rfl, fun v h => by cases v; exacts [h, rfl]⟩
theorem Laws.EncodeFitsRow.add (rd rs1 rs2 : RegNum) : Laws.EncodeFitsRow.Statement (.add rd rs1 rs2) :=
  ⟨_, rfl, (rWord_and_mask _ _ _ _ _ _).trans rfl, fun v _ => by cases v <;> rfl⟩
theorem Laws.EncodeFitsRow.sub (rd rs1 rs2 : RegNum) : Laws.EncodeFitsRow.Statement (.sub rd rs1 rs2) :=
  ⟨_, rfl, (rWord_and_mask _ _ _ _ _ _).trans rfl, fun v h => by cases v; exacts [h, rfl]⟩
theorem Laws.EncodeFitsRow.and (rd rs1 rs2 : RegNum) : Laws.EncodeFitsRow.Statement (.and rd rs1 rs2) :=
  ⟨_, rfl, (rWord_and_mask _ _ _ _ _ _).trans rfl, fun v h => by cases v; exacts [h, rfl]⟩
theorem Laws.EncodeFitsRow.or (rd rs1 rs2 : RegNum) : Laws.EncodeFitsRow.Statement (.or rd rs1 rs2) :=
  ⟨_, rfl, (rWord_and_mask _ _ _ _ _ _).trans rfl, fun v h => by cases v; exacts [h, rfl]⟩
theorem Laws.EncodeFitsRow.xor (rd rs1 rs2 : RegNum) : Laws.EncodeFitsRow.Statement (.xor rd rs1 rs2) :=
  ⟨_, rfl, (rWord_and_mask _ _ _ _ _ _).trans rfl, fun v h => by cases v; exacts [h, rfl]⟩
theorem Laws.EncodeFitsRow.slt (rd rs1 rs2 : RegNum) : Laws.EncodeFitsRow.Statement (.slt rd rs1 rs2) :=
  ⟨_, rfl, (rWord_and_mask _ _ _ _ _ _).trans rfl, fun v h => by cases v; exacts [h, rfl]⟩
theorem Laws.EncodeFitsRow.sltu (rd rs1 rs2 : RegNum) : Laws.EncodeFitsRow.Statement (.sltu rd rs1 rs2) :=
  ⟨_, rfl, (rWord_and_mask _ _ _ _ _ _).trans rfl, fun v h => by cases v; exacts [h, rfl]⟩
theorem Laws.EncodeFitsRow.sra (rd rs1 rs2 : RegNum) : Laws.EncodeFitsRow.Statement (.sra rd rs1 rs2) :=
  ⟨_, rfl, (rWord_and_mask _ _ _ _ _ _).trans rfl, fun v h => by cases v; exacts [h, rfl]⟩
theorem Laws.EncodeFitsRow.srl (rd rs1 rs2 : RegNum) : Laws.EncodeFitsRow.Statement (.srl rd rs1 rs2) :=
  ⟨_, rfl, (rWord_and_mask _ _ _ _ _ _).trans rfl, fun v h => by cases v; exacts [h, rfl]⟩
theorem Laws.EncodeFitsRow.sll (rd rs1 rs2 : RegNum) : Laws.EncodeFitsRow.Statement (.sll rd rs1 rs2) :=
  ⟨_, rfl, (rWord_and_mask _ _ _ _ _ _).trans rfl, fun v h => by cases v; exacts [h, rfl]⟩
theorem Laws.EncodeFitsRow.mul (rd rs1 rs2 : RegNum) : Laws.EncodeFitsRow.Statement (.mul rd rs1 rs2) :=
  ⟨_, rfl, (rWord_and_mask _ _ _ _ _ _).trans rfl, fun v _ => by cases v <;> rfl⟩
theorem Laws.EncodeFitsRow.addi (rd rs1 : RegNum) (imm : BitVec 12) : Laws.EncodeFitsRow.Statement (.addi rd rs1 imm) :=
  ⟨_, rfl, (iWord_and_mask _ _ _ _ _).trans rfl, fun v _ => by cases v <;> rfl⟩
theorem Laws.EncodeFitsRow.andi (rd rs1 : RegNum) (imm : BitVec 12) : Laws.EncodeFitsRow.Statement (.andi rd rs1 imm) :=
  ⟨_, rfl, (iWord_and_mask _ _ _ _ _).trans rfl, fun v h => by cases v; exacts [h, rfl]⟩
theorem Laws.EncodeFitsRow.ori (rd rs1 : RegNum) (imm : BitVec 12) : Laws.EncodeFitsRow.Statement (.ori rd rs1 imm) :=
  ⟨_, rfl, (iWord_and_mask _ _ _ _ _).trans rfl, fun v h => by cases v; exacts [h, rfl]⟩
theorem Laws.EncodeFitsRow.xori (rd rs1 : RegNum) (imm : BitVec 12) : Laws.EncodeFitsRow.Statement (.xori rd rs1 imm) :=
  ⟨_, rfl, (iWord_and_mask _ _ _ _ _).trans rfl, fun v h => by cases v; exacts [h, rfl]⟩
theorem Laws.EncodeFitsRow.slti (rd rs1 : RegNum) (imm : BitVec 12) : Laws.EncodeFitsRow.Statement (.slti rd rs1 imm) :=
  ⟨_, rfl, (iWord_and_mask _ _ _ _ _).trans rfl, fun v h => by cases v; exacts [h, rfl]⟩
theorem Laws.EncodeFitsRow.sltiu (rd rs1 : RegNum) (imm : BitVec 12) : Laws.EncodeFitsRow.Statement (.sltiu rd rs1 imm) :=
  ⟨_, rfl, (iWord_and_mask _ _ _ _ _).trans rfl, fun v h => by cases v; exacts [h, rfl]⟩
theorem Laws.EncodeFitsRow.srai (rd rs1 : RegNum) (shamt : BitVec 5) : Laws.EncodeFitsRow.Statement (.srai rd rs1 shamt) :=
  ⟨_, rfl, (rWord_and_mask _ _ _ _ _ _).trans rfl, fun v h => by cases v; exacts [h, rfl]⟩
theorem Laws.EncodeFitsRow.srli (rd rs1 : RegNum) (shamt : BitVec 5) : Laws.EncodeFitsRow.Statement (.srli rd rs1 shamt) :=
  ⟨_, rfl, (rWord_and_mask _ _ _ _ _ _).trans rfl, fun v h => by cases v; exacts [h, rfl]⟩
theorem Laws.EncodeFitsRow.slli (rd rs1 : RegNum) (shamt : BitVec 5) : Laws.EncodeFitsRow.Statement (.slli rd rs1 shamt) :=
  ⟨_, rfl, (rWord_and_mask _ _ _ _ _ _).trans rfl, fun v h => by cases v; exacts [h, rfl]⟩
theorem Laws.EncodeFitsRow.lui (rd : RegNum) (imm : BitVec 20) : Laws.EncodeFitsRow.Statement (.lui rd imm) :=
  ⟨_, rfl, (uWord_and_mask _ _ _).trans rfl, fun v h => by cases v; exacts [h, rfl]⟩
theorem Laws.EncodeFitsRow.auipc (rd : RegNum) (imm : BitVec 20) : Laws.EncodeFitsRow.Statement (.auipc rd imm) :=
  ⟨_, rfl, (uWord_and_mask _ _ _).trans rfl, fun v h => by cases v; exacts [h, rfl]⟩
theorem Laws.EncodeFitsRow.lw (rd rs1 : RegNum) (imm : BitVec 12) : Laws.EncodeFitsRow.Statement (.lw rd rs1 imm) :=
  ⟨_, rfl, (iWord_and_mask _ _ _ _ _).trans rfl, fun v _ => by cases v <;> rfl⟩
theorem Laws.EncodeFitsRow.sw (rs2 rs1 : RegNum) (imm : BitVec 12) : Laws.EncodeFitsRow.Statement (.sw rs2 rs1 imm) :=
  ⟨_, rfl, (sWord_and_mask _ _ _ _ _).trans rfl, fun v _ => by cases v <;> rfl⟩
theorem Laws.EncodeFitsRow.jal (rd : RegNum) (offset : BitVec 21) : Laws.EncodeFitsRow.Statement (.jal rd offset) :=
  ⟨_, rfl, (jWord_and_mask _ _ _).trans rfl, fun v _ => by cases v <;> rfl⟩
theorem Laws.EncodeFitsRow.jr (rs1 : RegNum) : Laws.EncodeFitsRow.Statement (.jr rs1) :=
  ⟨_, rfl, (iWord_and_jrMask _ _ _ _ _).trans rfl, fun v h => by cases v; exacts [rfl, h]⟩
theorem Laws.EncodeFitsRow.jalr (rd rs1 : RegNum) (imm : BitVec 12) : Laws.EncodeFitsRow.Statement (.jalr rd rs1 imm) :=
  ⟨_, rfl, (iWord_and_mask _ _ _ _ _).trans rfl, fun v h => by cases v; exacts [h, rfl]⟩
theorem Laws.EncodeFitsRow.beq (rs1 rs2 : RegNum) (offset : BitVec 13) : Laws.EncodeFitsRow.Statement (.beq rs1 rs2 offset) :=
  ⟨_, rfl, (bWord_and_mask _ _ _ _ _).trans rfl, fun v h => by cases v; exacts [h, rfl]⟩
theorem Laws.EncodeFitsRow.bne (rs1 rs2 : RegNum) (offset : BitVec 13) : Laws.EncodeFitsRow.Statement (.bne rs1 rs2 offset) :=
  ⟨_, rfl, (bWord_and_mask _ _ _ _ _).trans rfl, fun v _ => by cases v <;> rfl⟩
theorem Laws.EncodeFitsRow.blt (rs1 rs2 : RegNum) (offset : BitVec 13) : Laws.EncodeFitsRow.Statement (.blt rs1 rs2 offset) :=
  ⟨_, rfl, (bWord_and_mask _ _ _ _ _).trans rfl, fun v h => by cases v; exacts [h, rfl]⟩
theorem Laws.EncodeFitsRow.bge (rs1 rs2 : RegNum) (offset : BitVec 13) : Laws.EncodeFitsRow.Statement (.bge rs1 rs2 offset) :=
  ⟨_, rfl, (bWord_and_mask _ _ _ _ _).trans rfl, fun v h => by cases v; exacts [h, rfl]⟩
theorem Laws.EncodeFitsRow.bltu (rs1 rs2 : RegNum) (offset : BitVec 13) : Laws.EncodeFitsRow.Statement (.bltu rs1 rs2 offset) :=
  ⟨_, rfl, (bWord_and_mask _ _ _ _ _).trans rfl, fun v h => by cases v; exacts [h, rfl]⟩
theorem Laws.EncodeFitsRow.bgeu (rs1 rs2 : RegNum) (offset : BitVec 13) : Laws.EncodeFitsRow.Statement (.bgeu rs1 rs2 offset) :=
  ⟨_, rfl, (bWord_and_mask _ _ _ _ _).trans rfl, fun v h => by cases v; exacts [h, rfl]⟩

end Sys2Proof
end

