-- ==== Sys2Proof/Tests/Slice0.lean ====
section
/-! SUPPORT. Tests. Expected results come from spec/95_test_vectors.md (Part 2, the family's section) unless a comment
says otherwise; words of the decode tests are written out from the encoding lines of 30_encoding.md R63. Then one
witness for every statement of the obligations that has hypotheses. -/

namespace Sys2Proof.Tests

open Sys2Proof.Machine

/-! A small state: a word at the pc, some registers set, everything else as after reset. -/

def withRegs (regs : List (RegNum × Word)) (s : State) : State :=
  regs.foldl (fun s p => s.writeReg p.1 p.2) s

def withWord (a : Nat) (w : Word) (s : State) : State := { s with mem := s.mem.writeWord a w }

def atPc (pc w : Word) (regs : List (RegNum × Word)) : State :=
  withWord pc.toNat w { withRegs regs State.reset with pc := pc }

/-- The outcome is a next state with the property. -/
def nextHas (o : Host.Outcome State Fault Refusal) (p : State → Bool) : Bool :=
  match o with
  | .next t => p t
  | _ => false

def faultIs (o : Host.Outcome State Fault Refusal) (f : Fault) : Bool :=
  match o with
  | .fault g => f == g
  | _ => false

def refusalIs (o : Host.Outcome State Fault Refusal) (r : Refusal) : Bool :=
  match o with
  | .refused q => r == q
  | _ => false

/-- One step of the word at `pc` leaves `v` in register `r` and goes to `p`. -/
def gives (pc w : Word) (regs : List (RegNum × Word)) (r : RegNum) (v p : Word) : Bool :=
  nextHas (step (atPc pc w regs)) fun t => t.readReg r == v && t.pc == p

/-! WellFormed refuses an odd branch or JAL offset (R57, R59). -/

theorem test_wellFormed_refuses_odd_beq : (Instr.beq 1#5 2#5 15#13).wellFormed = false := by decide
theorem test_wellFormed_refuses_odd_bne : (Instr.bne 1#5 2#5 15#13).wellFormed = false := by decide
theorem test_wellFormed_refuses_odd_blt : (Instr.blt 1#5 2#5 15#13).wellFormed = false := by decide
theorem test_wellFormed_refuses_odd_bge : (Instr.bge 1#5 2#5 15#13).wellFormed = false := by decide
theorem test_wellFormed_refuses_odd_bltu : (Instr.bltu 1#5 2#5 15#13).wellFormed = false := by decide
theorem test_wellFormed_refuses_odd_bgeu : (Instr.bgeu 1#5 2#5 15#13).wellFormed = false := by decide
theorem test_wellFormed_refuses_odd_jal : (Instr.jal 1#5 (-1)).wellFormed = false := by decide
theorem test_wellFormed_admits_even : (Instr.beq 1#5 2#5 4094#13).wellFormed = true ∧
    (Instr.jal 1#5 (-1048576)).wellFormed = true ∧ (Instr.csrr 1#5 0x300#12).wellFormed = true := by decide

/-! Decoding: one word written out per constructor (30_encoding.md R63; 45_jumps.md R141). -/

theorem test_decode_csrr : decodeWord .tinyRV2 0b111111000000_00000_010_00101_1110011#32 = .ok (.csrr 5#5 0xfc0#12) := by decide
theorem test_decode_csrw : decodeWord .tinyRV2 0b011111000000_00101_001_00000_1110011#32 = .ok (.csrw 0x7c0#12 5#5) := by decide
theorem test_decode_add : decodeWord .tinyRV2 0b0000000_00010_00001_000_00011_0110011#32 = .ok (.add 3#5 1#5 2#5) := by decide
theorem test_decode_sub : decodeWord .tinyRV2 0b0100000_00010_00001_000_00011_0110011#32 = .ok (.sub 3#5 1#5 2#5) := by decide
theorem test_decode_and : decodeWord .tinyRV2 0b0000000_00010_00001_111_00011_0110011#32 = .ok (.and 3#5 1#5 2#5) := by decide
theorem test_decode_or : decodeWord .tinyRV2 0b0000000_00010_00001_110_00011_0110011#32 = .ok (.or 3#5 1#5 2#5) := by decide
theorem test_decode_xor : decodeWord .tinyRV2 0b0000000_00010_00001_100_00011_0110011#32 = .ok (.xor 3#5 1#5 2#5) := by decide
theorem test_decode_slt : decodeWord .tinyRV2 0b0000000_00010_00001_010_00011_0110011#32 = .ok (.slt 3#5 1#5 2#5) := by decide
theorem test_decode_sltu : decodeWord .tinyRV2 0b0000000_00010_00001_011_00011_0110011#32 = .ok (.sltu 3#5 1#5 2#5) := by decide
theorem test_decode_sra : decodeWord .tinyRV2 0b0100000_00010_00001_101_00011_0110011#32 = .ok (.sra 3#5 1#5 2#5) := by decide
theorem test_decode_srl : decodeWord .tinyRV2 0b0000000_00010_00001_101_00011_0110011#32 = .ok (.srl 3#5 1#5 2#5) := by decide
theorem test_decode_sll : decodeWord .tinyRV2 0b0000000_00010_00001_001_00011_0110011#32 = .ok (.sll 3#5 1#5 2#5) := by decide
theorem test_decode_mul : decodeWord .tinyRV2 0b0000001_00010_00001_000_00011_0110011#32 = .ok (.mul 3#5 1#5 2#5) := by decide
theorem test_decode_addi : decodeWord .tinyRV2 0b100000000001_00110_000_00101_0010011#32 = .ok (.addi 5#5 6#5 0x801#12) := by decide
theorem test_decode_andi : decodeWord .tinyRV2 0b100000000001_00110_111_00101_0010011#32 = .ok (.andi 5#5 6#5 0x801#12) := by decide
theorem test_decode_ori : decodeWord .tinyRV2 0b100000000001_00110_110_00101_0010011#32 = .ok (.ori 5#5 6#5 0x801#12) := by decide
theorem test_decode_xori : decodeWord .tinyRV2 0b100000000001_00110_100_00101_0010011#32 = .ok (.xori 5#5 6#5 0x801#12) := by decide
theorem test_decode_slti : decodeWord .tinyRV2 0b100000000001_00110_010_00101_0010011#32 = .ok (.slti 5#5 6#5 0x801#12) := by decide
theorem test_decode_sltiu : decodeWord .tinyRV2 0b100000000001_00110_011_00101_0010011#32 = .ok (.sltiu 5#5 6#5 0x801#12) := by decide
theorem test_decode_srai : decodeWord .tinyRV2 0b0100000_11110_00001_101_00011_0010011#32 = .ok (.srai 3#5 1#5 30#5) := by decide
theorem test_decode_srli : decodeWord .tinyRV2 0b0000000_11110_00001_101_00011_0010011#32 = .ok (.srli 3#5 1#5 30#5) := by decide
theorem test_decode_slli : decodeWord .tinyRV2 0b0000000_11110_00001_001_00011_0010011#32 = .ok (.slli 3#5 1#5 30#5) := by decide
theorem test_decode_lui : decodeWord .tinyRV2 0b00010010001101000101_00011_0110111#32 = .ok (.lui 3#5 0x12345#20) := by decide
theorem test_decode_auipc : decodeWord .tinyRV2 0b11111111111111111110_00011_0010111#32 = .ok (.auipc 3#5 0xffffe#20) := by decide
theorem test_decode_lw : decodeWord .tinyRV2 0b111111111100_00010_010_00101_0000011#32 = .ok (.lw 5#5 2#5 (-4)) := by decide
theorem test_decode_sw : decodeWord .tinyRV2 0b1111111_00101_00010_010_11100_0100011#32 = .ok (.sw 5#5 2#5 (-4)) := by decide
theorem test_decode_jal : decodeWord .tinyRV2 0b0_0110100010_0_00010010_00001_1101111#32 = .ok (.jal 1#5 0x12344#21) := by decide
theorem test_decode_jal_bit_11 : decodeWord .tinyRV2 0b0_0000000000_1_00000000_00001_1101111#32 = .ok (.jal 1#5 0x800#21) := by decide
theorem test_decode_jr : decodeWord .tinyRV1 0b000000000000_11111_000_00000_1100111#32 = .ok (.jr 31#5) := by decide
theorem test_decode_jr_word_in_tinyRV2 : decodeWord .tinyRV2 0b000000000000_11111_000_00000_1100111#32 = .ok (.jalr 0#5 31#5 0#12) := by decide
theorem test_decode_jalr : decodeWord .tinyRV2 0b111111111100_00010_000_00001_1100111#32 = .ok (.jalr 1#5 2#5 (-4)) := by decide
theorem test_decode_beq : decodeWord .tinyRV2 0b0_000000_00010_00001_000_0001_1_1100011#32 = .ok (.beq 1#5 2#5 0x802#13) := by decide
theorem test_decode_bne : decodeWord .tinyRV2 0b0_000000_00010_00001_001_0001_1_1100011#32 = .ok (.bne 1#5 2#5 0x802#13) := by decide
theorem test_decode_blt : decodeWord .tinyRV2 0b0_000000_00010_00001_100_0001_1_1100011#32 = .ok (.blt 1#5 2#5 0x802#13) := by decide
theorem test_decode_bge : decodeWord .tinyRV2 0b0_000000_00010_00001_101_0001_1_1100011#32 = .ok (.bge 1#5 2#5 0x802#13) := by decide
theorem test_decode_bltu : decodeWord .tinyRV2 0b0_000000_00010_00001_110_0001_1_1100011#32 = .ok (.bltu 1#5 2#5 0x802#13) := by decide
theorem test_decode_bgeu : decodeWord .tinyRV2 0b0_000000_00010_00001_111_0001_1_1100011#32 = .ok (.bgeu 1#5 2#5 0x802#13) := by decide
theorem test_decode_branch_negative : decodeWord .tinyRV2 0b1_111111_00010_00001_000_1110_1_1100011#32 = .ok (.beq 1#5 2#5 (-4)) := by decide

/-! One step each (95_test_vectors.md 2.2, 2.3, 2.5, 2.6). A branch writes no register. -/

theorem test_add_wraps :
    gives 0x200#32 0x002081b3#32 [(1, 0xffffffff#32), (2, 1#32)] 3 0#32 0x204#32 = true := by decide
theorem test_add_same_register :
    gives 0x200#32 0x001080b3#32 [(1, 0x80000001#32)] 1 2#32 0x204#32 = true := by decide
theorem test_sub_borrows :
    gives 0x200#32 0x402081b3#32 [(1, 0#32), (2, 1#32)] 3 0xffffffff#32 0x204#32 = true := by decide
theorem test_sub_operand_order :
    gives 0x200#32 0x402081b3#32 [(1, 0x80000000#32), (2, 1#32)] 3 0x7fffffff#32 0x204#32 = true := by decide
theorem test_and :
    gives 0x200#32 0x0020f1b3#32 [(1, 0xff00ff00#32), (2, 0x0ff00ff0#32)] 3 0x0f000f00#32 0x204#32 = true := by decide
theorem test_or :
    gives 0x200#32 0x0020e1b3#32 [(1, 0xff00ff00#32), (2, 0x0ff00ff0#32)] 3 0xfff0fff0#32 0x204#32 = true := by decide
theorem test_xor :
    gives 0x200#32 0x0020c1b3#32 [(1, 0xff00ff00#32), (2, 0x0ff00ff0#32)] 3 0xf0f0f0f0#32 0x204#32 = true := by decide
theorem test_slt_signed :
    gives 0x200#32 0x0020a1b3#32 [(1, 0xffffffff#32), (2, 1#32)] 3 1#32 0x204#32 = true := by decide
theorem test_slt_equal :
    gives 0x200#32 0x0020a1b3#32 [(1, 5#32), (2, 5#32)] 3 0#32 0x204#32 = true := by decide
theorem test_sltu_unsigned :
    gives 0x200#32 0x0020b1b3#32 [(1, 0xffffffff#32), (2, 1#32)] 3 0#32 0x204#32 = true := by decide
theorem test_sltu_x0 :
    gives 0x200#32 0x002031b3#32 [(2, 0x80000000#32)] 3 1#32 0x204#32 = true := by decide
theorem test_sra_sign :
    gives 0x200#32 0x4020d1b3#32 [(1, 0x80000000#32), (2, 0x1f#32)] 3 0xffffffff#32 0x204#32 = true := by decide
theorem test_sra_low_five_bits :
    gives 0x200#32 0x4020d1b3#32 [(1, 0xfffffff0#32), (2, 0xffffffe2#32)] 3 0xfffffffc#32 0x204#32 = true := by decide
theorem test_srl :
    gives 0x200#32 0x0020d1b3#32 [(1, 0x80000000#32), (2, 4#32)] 3 0x08000000#32 0x204#32 = true := by decide
theorem test_srl_by_32_is_by_0 :
    gives 0x200#32 0x0020d1b3#32 [(1, 0xffffffff#32), (2, 0x20#32)] 3 0xffffffff#32 0x204#32 = true := by decide
theorem test_sll_by_33_is_by_1 :
    gives 0x200#32 0x002091b3#32 [(1, 3#32), (2, 0x21#32)] 3 6#32 0x204#32 = true := by decide
theorem test_sll_out :
    gives 0x200#32 0x002091b3#32 [(1, 0xffffffff#32), (2, 0x10#32)] 3 0xffff0000#32 0x204#32 = true := by decide
theorem test_mul_low_half :
    gives 0x200#32 0x022081b3#32 [(1, 0x12345678#32), (2, 0x9abcdef0#32)] 3 0x242d2080#32 0x204#32 = true := by decide
theorem test_mul_signs :
    gives 0x200#32 0x022081b3#32 [(1, 0xfffffffb#32), (2, 3#32)] 3 0xfffffff1#32 0x204#32 = true := by decide
theorem test_addi_negative :
    gives 0x200#32 0x80008193#32 [(1, 0x800#32)] 3 0#32 0x204#32 = true := by decide
theorem test_addi_wraps :
    gives 0x200#32 0x00428293#32 [(5, 0xfffffffc#32)] 5 0#32 0x204#32 = true := by decide
theorem test_andi_sign_extends :
    gives 0x200#32 0xf000f193#32 [(1, 0x12345678#32)] 3 0x12345600#32 0x204#32 = true := by decide
theorem test_ori_sign_extends :
    gives 0x200#32 0x8000e193#32 [(1, 0x12345678#32)] 3 0xfffffe78#32 0x204#32 = true := by decide
theorem test_xori_not :
    gives 0x200#32 0xfff0c193#32 [(1, 0x12345678#32)] 3 0xedcba987#32 0x204#32 = true := by decide
theorem test_slti_negative :
    gives 0x200#32 0x8000a193#32 [(1, 0x80000000#32)] 3 1#32 0x204#32 = true := by decide
theorem test_slti_equal :
    gives 0x200#32 0x7ff0a193#32 [(1, 0x7ff#32)] 3 0#32 0x204#32 = true := by decide
theorem test_sltiu_sign_extends :
    gives 0x200#32 0xfff0b193#32 [(1, 0xfffffffe#32)] 3 1#32 0x204#32 = true := by decide
theorem test_sltiu_unsigned :
    gives 0x200#32 0x8000b193#32 [(1, 0x7fffffff#32)] 3 1#32 0x204#32 = true := by decide
theorem test_srai :
    gives 0x200#32 0x41f0d193#32 [(1, 0x80000000#32)] 3 0xffffffff#32 0x204#32 = true := by decide
theorem test_srai_by_0 :
    gives 0x200#32 0x4000d193#32 [(1, 0x80000001#32)] 3 0x80000001#32 0x204#32 = true := by decide
theorem test_srli :
    gives 0x200#32 0x0100d193#32 [(1, 0xdeadbeef#32)] 3 0xdead#32 0x204#32 = true := by decide
theorem test_slli :
    gives 0x200#32 0x01009193#32 [(1, 0xdeadbeef#32)] 3 0xbeef0000#32 0x204#32 = true := by decide
theorem test_lui_overwrites :
    gives 0x200#32 0x123451b7#32 [(3, 0xffffffff#32)] 3 0x12345000#32 0x204#32 = true := by decide
theorem test_lui_x0 :
    gives 0x200#32 0x12345037#32 [] 0 0#32 0x204#32 = true := by decide
theorem test_auipc_own_address :
    gives 0x204#32 0x00001197#32 [] 3 0x1204#32 0x208#32 = true := by decide
theorem test_auipc_wraps :
    gives 0x1000#32 0xfffff197#32 [] 3 0#32 0x1004#32 = true := by decide
theorem test_jal_backward :
    gives 0x400#32 0xe01ff2ef#32 [] 5 0x404#32 0x200#32 = true := by decide
theorem test_jal_leaves_memory :
    gives 0xffffc#32 0x800000ef#32 [] 1 0x100000#32 0xfffffffc#32 = true := by decide
theorem test_jalr_old_register :
    gives 0x200#32 0x000080e7#32 [(1, 0x400#32)] 1 0x204#32 0x400#32 = true := by decide
theorem test_jalr_clears_bit_0_of_the_sum :
    gives 0x200#32 0x001100e7#32 [(2, 0x1001#32)] 1 0x204#32 0x1002#32 = true := by decide
theorem test_beq_taken :
    gives 0x200#32 0x00208863#32 [(1, 5#32), (2, 5#32)] 1 5#32 0x210#32 = true := by decide
theorem test_beq_not_taken :
    gives 0x200#32 0x00208863#32 [(1, 5#32), (2, 6#32)] 1 5#32 0x204#32 = true := by decide
theorem test_bne_taken :
    gives 0x200#32 0x00209863#32 [(1, 5#32), (2, 6#32)] 1 5#32 0x210#32 = true := by decide
theorem test_bne_not_taken :
    gives 0x200#32 0x00209863#32 [(1, 5#32), (2, 5#32)] 1 5#32 0x204#32 = true := by decide
theorem test_blt_signed :
    gives 0x200#32 0x0020c863#32 [(1, 0x80000000#32), (2, 0x7fffffff#32)] 1 0x80000000#32 0x210#32 = true := by decide
theorem test_blt_equal :
    gives 0x200#32 0x0020c863#32 [(1, 5#32), (2, 5#32)] 1 5#32 0x204#32 = true := by decide
theorem test_bge_signed :
    gives 0x200#32 0x0020d863#32 [(1, 0xffffffff#32), (2, 1#32)] 1 0xffffffff#32 0x204#32 = true := by decide
theorem test_bge_equal :
    gives 0x200#32 0x0020d863#32 [(1, 5#32), (2, 5#32)] 1 5#32 0x210#32 = true := by decide
theorem test_bltu_unsigned :
    gives 0x200#32 0x0020e863#32 [(1, 0x80000000#32), (2, 0x7fffffff#32)] 1 0x80000000#32 0x204#32 = true := by decide
theorem test_bltu_less :
    gives 0x200#32 0x0020e863#32 [(1, 1#32), (2, 0xffffffff#32)] 1 1#32 0x210#32 = true := by decide
theorem test_bgeu_unsigned :
    gives 0x200#32 0x0020f863#32 [(1, 0xffffffff#32), (2, 1#32)] 1 0xffffffff#32 0x210#32 = true := by decide
theorem test_bgeu_less :
    gives 0x200#32 0x0020f863#32 [(1, 1#32), (2, 0xffffffff#32)] 1 1#32 0x204#32 = true := by decide

theorem test_jr_tinyRV1_keeps_bit_0 :
    nextHas (step { atPc 0x300#32 0x00008067#32 [(1, 0x205#32)] with version := .tinyRV1 })
      (fun t => t.pc == 0x205#32) = true := by decide
theorem test_jr_tinyRV2_clears_bit_0 :
    nextHas (exec (.jr 1) (atPc 0x300#32 0x00008067#32 [(1, 0x205#32)])) (fun t => t.pc == 0x204#32) = true := by decide

/-! Loads and stores (95_test_vectors.md 2.4). -/

theorem test_lw_negative_offset :
    nextHas (step (withWord 0xffc 0x11223344#32 (atPc 0x200#32 0xffc12283#32 [(2, 0x1000#32)])))
      (fun t => t.readReg 5 == 0x11223344#32 && t.pc == 0x204#32) = true := by decide
theorem test_lw_sum_wraps_then_out_of_range :
    faultIs (step (atPc 0x200#32 0xffc02283#32 [])) (.addressOutOfRange 0xfffffffc#32) = true := by decide
theorem test_sw_bytes :
    nextHas (step (atPc 0x200#32 0x00512223#32 [(2, 0x1000#32), (5, 0xcafebabe#32)]))
      (fun t => t.mem.readByte 0x1004 == 0xbe#8 && t.mem.readByte 0x1005 == 0xba#8 &&
        t.mem.readByte 0x1006 == 0xfe#8 && t.mem.readByte 0x1007 == 0xca#8) = true := by decide
/-! CSRs (95_test_vectors.md 2.7). -/

theorem test_csrr_x0_still_dequeues :
    nextHas (step { atPc 0x200#32 0xfc002073#32 [] with m2p := [0x2a#32, 7#32] })
      (fun t => t.m2p == [7#32] && t.pc == 0x204#32) = true := by decide
theorem test_csrr_coreid :
    nextHas (step { atPc 0x200#32 0xf1402573#32 [] with coreId := 2#32, numCores := 4#32 })
      (fun t => t.readReg 10 == 2#32) = true := by decide
theorem test_csrw_proc2mngr :
    nextHas (step (atPc 0x200#32 0x7c029073#32 [(5, 0xdeadbeef#32)]))
      (fun t => t.p2m == [0xdeadbeef#32] && t.sent == [0xdeadbeef#32] && t.pc == 0x204#32) = true := by decide
theorem test_csrw_stats_en_all_bits :
    nextHas (step (atPc 0x200#32 0x7c109073#32 [(1, 0xdeadbeef#32)])) (fun t => t.statsEn == 0xdeadbeef#32) = true := by
  decide

/-! The order of the checks (95_test_vectors.md 2.9), a store into the text (P6), words that are no instruction. -/

theorem test_decode_before_csr_number :
    faultIs (step (atPc 0x200#32 0x340090f3#32 [])) (.illegalInstruction 0x340090f3#32 0x200#32) = true := by decide
theorem test_store_to_text_refused :
    refusalIs (step { atPc 0x204#32 0x20102623#32 [(1, 0x13#32)] with smc := .refuse [⟨0x80, 4⟩] })
      (.storeToText 0x20c#32) = true := by decide
theorem test_words_of_other_machines :
    [0x00000000#32, 0xffffffff#32, 0x00000073#32, 0x30200073#32, 0x0ff0000f#32, 0x00010283#32, 0x00510023#32,
      0x022091b3#32, 0x0220c1b3#32, 0x4020f1b3#32, 0x40409193#32, 0x00009067#32, 0x0020a063#32, 0x7c1030f3#32].all
      (fun w => decodeWord .tinyRV2 w == .error (.notAnInstruction w)) = true := by decide
theorem test_tinyRV1_rejects_tinyRV2_words :
    [0x402081b3#32, 0x00208863#32, 0xfc0022f3#32, 0x004100e7#32].all
      (fun w => decodeWord .tinyRV1 w == .error (.notAnInstruction w)) = true := by decide

/-! The reset state, the fixed names, the assembler's side (R202, R12, R73). -/

theorem test_reset_pc : State.reset.pc = 0x00000200#32 := rfl
theorem test_withFetchWord_runs_the_word :
    nextHas (step (State.reset.withFetchWord 32 0x00108193)) (fun t => t.readReg 3 == 1#32) = true := by decide
theorem test_decodeTableWord : decodeTableWord 32 0x002081b3 = some (.add 3 1 2) := by decide
theorem test_decodeBytes_lowest_address_first :
    decodeBytes .tinyRV2 [0x83#8, 0x22#8, 0x81#8, 0x00#8, 0xff#8] = .ok (.lw 5 2 8, [0xff#8]) := by decide
theorem test_assembly_sw : assemblyText (.sw 5 2 (-4)) = "sw x5, -4(x2)" := by decide
theorem test_assembly_csrw : assemblyText (.csrw 0x7c0#12 5) = "csrw proc2mngr, x5" := by decide
theorem test_regNames : regNames.length = 32 ∧ regName 2 = "sp" ∧ regName 31 = "t6" := by decide

/-! Witnesses: for each statement with hypotheses, concrete data that meet all of them together, one for each clause,
at boundary values. A witness has the first words of its statement's name, or its comment names the statements. -/

theorem witness_DecodeOfEncode :
    (Instr.beq 1 2 4094#13).wellFormed = true ∧ (Instr.beq 1 2 4094#13).inVersion .tinyRV2 = true ∧
    (Instr.jal 31 (-1048576)).wellFormed = true ∧ (Instr.jal 31 (-1048576)).inVersion .tinyRV1 = true := by decide
theorem witness_EncodeOfDecode : decodeWord .tinyRV2 0x80208063#32 = .ok (.beq 1 2 (-4096)) := by decide
theorem witness_TinyRV1IsASubset :
    (Instr.jr 31).wellFormed = true ∧ decodeWord .tinyRV1 0x000f8067#32 = .ok (.jr 31) ∧
    decodeWord .tinyRV1 0xfe0098e3#32 = .ok (.bne 1 0 (-16)) := by decide

/-- FirstInstructionIsTheWordAtTheResetVector. -/
theorem witness_Launch : Launch (atPc 0x200#32 0x00000013#32 []) := ⟨by decide, rfl, rfl, by decide, by decide⟩

/-- The last word of memory. -/
theorem witness_StepRunsTheDecodedInstruction :
    (atPc 0xffffc#32 0x00108193#32 []).pc.toNat % 4 = 0 ∧ (atPc 0xffffc#32 0x00108193#32 []).pc.toNat ≤ 0x000fffff ∧
    (atPc 0xffffc#32 0x00108193#32 []).mem.readByte 0xffffc = 0x93#8 ∧
    (atPc 0xffffc#32 0x00108193#32 []).mem.readByte 0xffffd = 0x81#8 ∧
    (atPc 0xffffc#32 0x00108193#32 []).mem.readByte 0xffffe = 0x10#8 ∧
    (atPc 0xffffc#32 0x00108193#32 []).mem.readByte 0xfffff = 0x00#8 ∧
    decodeWord (atPc 0xffffc#32 0x00108193#32 []).version (0x00#8 ++ 0x10#8 ++ 0x81#8 ++ 0x93#8) =
      .ok (.addi 3 1 1) := by decide

/-- A pc both misaligned and out of range; the first address outside memory; the last word inside, holding zero. -/
theorem witness_FetchChecks :
    (0x100002#32).toNat % 4 ≠ 0 ∧ (0x100000#32).toNat % 4 = 0 ∧ 0x000fffff < (0x100000#32).toNat ∧
    (0xffffc#32).toNat % 4 = 0 ∧ (0xffffc#32).toNat ≤ 0x000fffff ∧
    decodeWord State.reset.version (State.reset.mem.readWord 0xffffc) =
      .error (.notAnInstruction (State.reset.mem.readWord 0xffffc)) := by decide

/-- A state whose manager sends a word, takes one and leaves proc2mngr not ready. -/
def beforeTurn : State := { State.reset with p2m := [1#32, 2#32], sent := [1#32, 2#32], manager := [⟨[7#32], 1, false⟩] }

theorem witness_ManagerTouchesOnlyItsFifos :
    State.reset.manager = [] ∧ beforeTurn.manager = ⟨[7#32], 1, false⟩ :: [] ∧
    beforeTurn.managerTurn.m2p = [7#32] ∧ beforeTurn.managerTurn.p2m = [2#32] := ⟨rfl, rfl, by decide, by decide⟩

theorem witness_X0 : (31 : RegNum) ≠ 0#5 ∧ (0#5 : RegNum) ≠ 31 := by decide
theorem witness_LuiThenAddi : (1 : RegNum) ≠ 0#5 := by decide
theorem witness_SignedAndUnsignedOrders :
    (0x80000000#32).getLsbD 31 = (0xffffffff#32).getLsbD 31 ∧ (0x80000000#32).getLsbD 31 ≠ (0x7fffffff#32).getLsbD 31 := by
  decide
theorem witness_ShiftsScale : 30 < (31#5).toNat ∧ 32 - (31#5).toNat ≤ 1 ∧ 1 < 32 := by decide

/-- The last word of memory; the first address after it; an address both misaligned and out of range. -/
theorem witness_Load :
    ((withRegs [(2, 0xffffc#32)] State.reset).effectiveAddress 2 0#12).toNat = 0xffffc ∧
    ((withRegs [(2, 0xffffc#32)] State.reset).effectiveAddress 2 4#12).toNat = 0x100000 ∧
    ((withRegs [(2, 0xffffc#32)] State.reset).effectiveAddress 2 5#12).toNat % 4 ≠ 0 := by decide

/-- Four words of program text at 0x200 to 0x20f. -/
def underRefuse : State := { State.reset with smc := .refuse [⟨0x80, 4⟩] }

/-- Stores just past the text and just before it under `refuse`, and to the last word of memory under `coherent`. -/
theorem witness_Store :
    underRefuse.smc = .refuse [⟨0x80, 4⟩] ∧
    (∀ r ∈ [(⟨0x80, 4⟩ : TextRange)], ¬(4 * r.firstWord ≤ (underRefuse.effectiveAddress 0 0x210#12).toNat ∧
      (underRefuse.effectiveAddress 0 0x210#12).toNat < 4 * (r.firstWord + r.words))) ∧
    (∀ r ∈ [(⟨0x80, 4⟩ : TextRange)], ¬(4 * r.firstWord ≤ (underRefuse.effectiveAddress 0 0x1fc#12).toNat ∧
      (underRefuse.effectiveAddress 0 0x1fc#12).toNat < 4 * (r.firstWord + r.words))) ∧
    (underRefuse.effectiveAddress 0 0x210#12).toNat = 0x210 ∧
    refusesStore underRefuse.smc (underRefuse.effectiveAddress 0 0x210#12) = false ∧
    refusesStore underRefuse.smc (underRefuse.effectiveAddress 0 0x1fc#12) = false ∧ State.reset.smc = .coherent ∧
    ((withRegs [(2, 0xffffc#32)] State.reset).effectiveAddress 2 0#12).toNat = 0xffffc ∧
    refusesStore State.reset.smc ((withRegs [(2, 0xffffc#32)] State.reset).effectiveAddress 2 0#12) = false := by decide

/-- StoreStopsOnMisalignedThenOutOfRangeThenText: the text's first and last word. -/
theorem witness_StoreToText :
    underRefuse.smc = .refuse [⟨0x80, 4⟩] ∧ (⟨0x80, 4⟩ : TextRange) ∈ [(⟨0x80, 4⟩ : TextRange)] ∧
    4 * 0x80 ≤ (underRefuse.effectiveAddress 0 0x200#12).toNat ∧
    (underRefuse.effectiveAddress 0 0x200#12).toNat % 4 = 0 ∧
    (underRefuse.effectiveAddress 0 0x20c#12).toNat < 4 * (0x80 + 4) ∧
    (underRefuse.effectiveAddress 0 0x20c#12).toNat % 4 = 0 := by decide

/-- Two registers and two offsets that give one address. -/
theorem witness_LoadAfterStore : ∃ t,
    exec (.sw 5 2 4#12) (withRegs [(2, 0x1000#32), (3, 0x1008#32), (5, 0xcafebabe#32)] State.reset) = .next t ∧
    t.effectiveAddress 3 (-4) =
      (withRegs [(2, 0x1000#32), (3, 0x1008#32), (5, 0xcafebabe#32)] State.reset).effectiveAddress 2 4#12 :=
  ⟨_, rfl, by decide⟩
theorem witness_FetchAfterStore : ∃ t u : State,
    exec (.sw 1 0 0x20c#12) (withRegs [(1, 0x13#32)] State.reset) = .next t ∧ u.mem = t.mem ∧
    u.pc = (withRegs [(1, 0x13#32)] State.reset).effectiveAddress 0 0x20c#12 :=
  ⟨_, { State.reset with mem := (withWord 0x20c 0x13#32 State.reset).mem, pc := 0x20c#32 }, rfl, by decide, by decide⟩
theorem witness_CanonicalMemories :
    Memory.wf [(0, 1#8), (0xfffff, 2#8)] = true ∧ Memory.wf [(0x100000, 1#8)] = false ∧
    Memory.wf [(5, 0#8)] = false ∧ Memory.wf [(5, 1#8), (5, 1#8)] = false := by decide

/-- JalLinksAndJumpsRelative; EqualityBranches and OrderBranches: the largest and the smallest offset. -/
theorem witness_EvenOffsets :
    (1048574#21).getLsbD 0 = false ∧ (1048576#21).getLsbD 0 = false ∧ (4094#13).getLsbD 0 = false ∧
    (4096#13).getLsbD 0 = false := by decide
theorem witness_JrIsJalr :
    State.reset.version = .tinyRV2 ∧ ({ State.reset with version := .tinyRV1 } : State).version = .tinyRV1 ∧
    (({ State.reset with version := .tinyRV1 } : State).readReg 1).getLsbD 0 = false := by decide

/-! Numbers beside the five CSRs; a word to read, a FIFO that is ready; both holds. -/

/-- CsrrStopsOnProc2mngrAndOnNoCsr, CsrwStopsOnReadOnlyAndOnNoCsr. -/
theorem witness_NoCsr :
    (0x300#12 : CsrNum) ∉ [0x7c0#12, 0x7c1#12, 0xfc0#12, 0xfc1#12, 0xf14#12] ∧
    (0x7c2#12 : CsrNum) ∉ [0x7c0#12, 0x7c1#12, 0xfc0#12, 0xfc1#12, 0xf14#12] ∧
    (0xf13#12 : CsrNum) ∉ [0x7c0#12, 0x7c1#12, 0xfc0#12, 0xfc1#12, 0xf14#12] := by decide
theorem witness_Csrr : ({ State.reset with m2p := [0x2a#32, 7#32] } : State).m2p = 0x2a#32 :: [7#32] := rfl
theorem witness_Csrw : State.reset.p2mReady = true := rfl
theorem witness_Held : State.reset.m2p = [] ∧ ({ State.reset with p2mReady := false } : State).p2mReady = false :=
  ⟨rfl, rfl⟩

theorem witness_HeldForEver :
    (atPc 0x200#32 0xfc0022f3#32 []).fetch = .ok 0xfc0022f3#32 ∧
    decodeWord .tinyRV2 0xfc0022f3#32 = .ok (.csrr 5 0xfc0#12) ∧ (atPc 0x200#32 0xfc0022f3#32 []).m2p = [] ∧
    (atPc 0x200#32 0xfc0022f3#32 []).manager = [] ∧
    ({ atPc 0x200#32 0x7c029073#32 [] with p2mReady := false } : State).fetch = .ok 0x7c029073#32 ∧
    decodeWord .tinyRV2 0x7c029073#32 = .ok (.csrw 0x7c0#12 5) ∧
    ({ atPc 0x200#32 0x7c029073#32 [] with p2mReady := false } : State).p2mReady = false := by decide
theorem witness_HoldIsLifted :
    ({ atPc 0x200#32 0xfc0022f3#32 [] with manager := [⟨[7#32, 8#32], 0, true⟩] } : State).fetch = .ok 0xfc0022f3#32 ∧
    decodeWord .tinyRV2 0xfc0022f3#32 = .ok (.csrr 5 0xfc0#12) ∧
    ({ atPc 0x200#32 0xfc0022f3#32 [] with manager := [⟨[7#32, 8#32], 0, true⟩] } : State).m2p = [] ∧
    ({ atPc 0x200#32 0xfc0022f3#32 [] with manager := [⟨[7#32, 8#32], 0, true⟩] } : State).manager =
      ⟨7#32 :: [8#32], 0, true⟩ :: [] := by decide

/-! Runs, steps and outcomes. -/

/-- OutputOnlyGrowsAlongARun. -/
theorem witness_Run : ∃ t, core.run 1 (atPc 0x200#32 0x7c029073#32 [(5, 9#32)]) = .next t ∧ t.sent = [9#32] :=
  ⟨_, rfl, by decide⟩
theorem witness_PcAdvances : ∃ t,
    exec (.add 3 1 2) State.reset = .next t ∧ transfersControl (.add 3 1 2) = false ∧
    isHeld (.add 3 1 2) State.reset = false := ⟨_, rfl, rfl, rfl⟩
/-- PcAdvancesByFourUnlessSaidOtherwise, held. -/
theorem witness_PcStaysWhenHeld :
    exec (.csrr 5 0xfc0#12) State.reset = .next State.reset ∧ transfersControl (.csrr 5 0xfc0#12) = false ∧
    isHeld (.csrr 5 0xfc0#12) State.reset = true := ⟨rfl, rfl, by decide⟩
theorem witness_EachKindOfStateHasOneWriter : ∃ t,
    exec (.add 3 1 2) State.reset = .next t ∧ (∀ rs2 rs1 imm, Instr.add 3 1 2 ≠ .sw rs2 rs1 imm) ∧
    (∀ rs1, Instr.add 3 1 2 ≠ .csrw 0x7c1#12 rs1) ∧ (∀ rd, Instr.add 3 1 2 ≠ .csrr rd 0xfc0#12) ∧
    (∀ rs1, Instr.add 3 1 2 ≠ .csrw 0x7c0#12 rs1) :=
  ⟨_, rfl, by simp, by simp, by simp, by simp⟩
theorem witness_OnlyCsrAndMemoryInstructionsStop :
    exec (.lw 5 0 1#12) State.reset = .fault (.misalignedData 1#32) ∧
    exec (.sw 5 0 0x200#12) underRefuse = .refused (.storeToText 0x200#32) :=
  ⟨rfl, rfl⟩
theorem witness_Coherent : State.reset.smc = .coherent := rfl
theorem witness_EveryStepKeepsTheInvariant : ∃ t,
    Inv (atPc 0x200#32 0x7c029073#32 [(5, 9#32)]) ∧ step (atPc 0x200#32 0x7c029073#32 [(5, 9#32)]) = .next t :=
  ⟨_, ⟨by decide, List.suffix_refl _, by decide, fun _ => by decide⟩, rfl⟩

/-- A TinyRV1 JR followed by an ADDI. -/
def tinyRV1Run : State :=
  withWord 0x400 0x00108193#32 { atPc 0x200#32 0x00008067#32 [(1, 0x400#32)] with version := .tinyRV1 }

theorem witness_TinyRV1RunsAreTinyRV2Runs : ∃ t u,
    tinyRV1Run.version = .tinyRV1 ∧ core.run 1 tinyRV1Run = .next t ∧ step t = .next u := ⟨_, _, rfl, rfl, rfl⟩

theorem decodes_no_csrr {w : Word} {n : CsrNum} {i : Instr} (h : decodeWord .tinyRV2 w = .ok i)
    (hi : ∀ rd, i ≠ .csrr rd n) : ∀ rd, decodeWord .tinyRV2 w ≠ .ok (.csrr rd n) := by
  intro rd e
  rw [h] at e
  exact hi rd (by injection e)

/-- A step that completes, one that faults, and one that is refused, none of them a read of stats_en. -/
theorem witness_StatsEn :
    (∀ rd, decodeWord .tinyRV2 0x00108193#32 ≠ .ok (.csrr rd 0x7c1#12)) ∧
    (∃ t, step (atPc 0x200#32 0x00108193#32 []) = .next t) ∧
    (∀ rd, decodeWord .tinyRV2 0x300020f3#32 ≠ .ok (.csrr rd 0x7c1#12)) ∧
    step (atPc 0x200#32 0x300020f3#32 []) = .fault (.illegalCsr 0x300#12) ∧
    (∀ rd, decodeWord .tinyRV2 0x20102623#32 ≠ .ok (.csrr rd 0x7c1#12)) ∧
    step { atPc 0x204#32 0x20102623#32 [] with smc := .refuse [⟨0x80, 4⟩] } = .refused (.storeToText 0x20c#32) :=
  ⟨decodes_no_csrr (i := .addi 3 1 1) (by decide) (fun _ h => by cases h), ⟨_, rfl⟩,
    decodes_no_csrr (i := .csrr 1 0x300#12) (by decide) (fun _ h => by cases h), rfl,
    decodes_no_csrr (i := .sw 1 0 0x20c#12) (by decide) (fun _ h => by cases h), rfl⟩

/-- A fault and a refusal at the second step; END_OF_RUN after one step; a run that is cut off. -/
theorem witness_FaultedRuns :
    (∃ t, runUntil (fun _ => false) 2 (atPc 0x200#32 0x00108193#32 []) =
      .faulted (.illegalInstruction 0#32 0x204#32) t) ∧
    (∃ t, runUntil (fun _ => false) 2
      (withWord 0x204 0x20102623#32 { atPc 0x200#32 0x01300093#32 [] with smc := .refuse [⟨0x80, 4⟩] }) =
      .refused (.storeToText 0x20c#32) t) ∧
    (∃ t, runUntil (fun s => s.pc == 0x204#32) 2 (atPc 0x200#32 0x00108193#32 []) = .ended t) ∧
    (∃ t, runUntil (fun _ => false) 1 (atPc 0x200#32 0x00108193#32 []) = .unfinished t) :=
  ⟨⟨_, rfl⟩, ⟨_, rfl⟩, ⟨_, rfl⟩, ⟨_, rfl⟩⟩

end Sys2Proof.Tests
end

section
/-! PROOFS. The scope of the two versions (00_scope.md R1): decoding undoes encoding, a row builds instructions of
exactly the versions that have the row, and TinyRV1's table lies inside TinyRV2's. -/

namespace Sys2Proof

/-! Decoding an encoded word. -/

/-- The word of an instruction fits the instruction's own row, in every version that has the instruction. -/
theorem encode_fits_row : ∀ i, Laws.EncodeFitsRow.Statement i
  | .csrr _ _ => Laws.EncodeFitsRow.csrr _ _
  | .csrw _ _ => Laws.EncodeFitsRow.csrw _ _
  | .add _ _ _ => Laws.EncodeFitsRow.add _ _ _
  | .sub _ _ _ => Laws.EncodeFitsRow.sub _ _ _
  | .and _ _ _ => Laws.EncodeFitsRow.and _ _ _
  | .or _ _ _ => Laws.EncodeFitsRow.or _ _ _
  | .xor _ _ _ => Laws.EncodeFitsRow.xor _ _ _
  | .slt _ _ _ => Laws.EncodeFitsRow.slt _ _ _
  | .sltu _ _ _ => Laws.EncodeFitsRow.sltu _ _ _
  | .sra _ _ _ => Laws.EncodeFitsRow.sra _ _ _
  | .srl _ _ _ => Laws.EncodeFitsRow.srl _ _ _
  | .sll _ _ _ => Laws.EncodeFitsRow.sll _ _ _
  | .mul _ _ _ => Laws.EncodeFitsRow.mul _ _ _
  | .addi _ _ _ => Laws.EncodeFitsRow.addi _ _ _
  | .andi _ _ _ => Laws.EncodeFitsRow.andi _ _ _
  | .ori _ _ _ => Laws.EncodeFitsRow.ori _ _ _
  | .xori _ _ _ => Laws.EncodeFitsRow.xori _ _ _
  | .slti _ _ _ => Laws.EncodeFitsRow.slti _ _ _
  | .sltiu _ _ _ => Laws.EncodeFitsRow.sltiu _ _ _
  | .srai _ _ _ => Laws.EncodeFitsRow.srai _ _ _
  | .srli _ _ _ => Laws.EncodeFitsRow.srli _ _ _
  | .slli _ _ _ => Laws.EncodeFitsRow.slli _ _ _
  | .lui _ _ => Laws.EncodeFitsRow.lui _ _
  | .auipc _ _ => Laws.EncodeFitsRow.auipc _ _
  | .lw _ _ _ => Laws.EncodeFitsRow.lw _ _ _
  | .sw _ _ _ => Laws.EncodeFitsRow.sw _ _ _
  | .jal _ _ => Laws.EncodeFitsRow.jal _ _
  | .jr _ => Laws.EncodeFitsRow.jr _
  | .jalr _ _ _ => Laws.EncodeFitsRow.jalr _ _ _
  | .beq _ _ _ => Laws.EncodeFitsRow.beq _ _ _
  | .bne _ _ _ => Laws.EncodeFitsRow.bne _ _ _
  | .blt _ _ _ => Laws.EncodeFitsRow.blt _ _ _
  | .bge _ _ _ => Laws.EncodeFitsRow.bge _ _ _
  | .bltu _ _ _ => Laws.EncodeFitsRow.bltu _ _ _
  | .bgeu _ _ _ => Laws.EncodeFitsRow.bgeu _ _ _

theorem evenOffset_iff {n : Nat} (offset : BitVec n) : evenOffset offset = true ↔ offset.getLsbD 0 = false := by
  rw [evenOffset, Bool.not_eq_true']

/-- The row of a well-formed instruction reads every operand back from the encoded word. -/
theorem row_build_encode (i : Instr) (hwf : i.wellFormed = true) :
    ∃ r, opcodeTable[i.rowIndex]? = some r ∧ r.build (encode i) = i := by
  cases i with
  | csrr | csrw =>
    exact ⟨_, rfl, by simp only [encode, rdOf_iWord, rs1Of_iWord, csrOf_iWord]⟩
  | add | sub | and | or | xor | slt | sltu | sra | srl | sll | mul =>
    exact ⟨_, rfl, by simp only [encode, rdOf_rWord, rs1Of_rWord, rs2Of_rWord]⟩
  | srai | srli | slli =>
    exact ⟨_, rfl, by simp only [encode, rdOf_rWord, rs1Of_rWord, shamtOf_rWord]⟩
  | addi | andi | ori | xori | slti | sltiu | lw | jr | jalr =>
    exact ⟨_, rfl, by simp only [encode, rdOf_iWord, rs1Of_iWord, immIOf_iWord]⟩
  | lui | auipc =>
    exact ⟨_, rfl, by simp only [encode, rdOf_uWord, immUOf_uWord]⟩
  | sw =>
    exact ⟨_, rfl, by simp only [encode, rs1Of_sWord, rs2Of_sWord, immSOf_sWord]⟩
  | jal rd offset =>
    have heven : offset.getLsbD 0 = false := (evenOffset_iff offset).mp hwf
    exact ⟨_, rfl, by simp only [encode, rdOf_jWord, immJOf_jWord _ _ _ heven]⟩
  | beq _ _ offset | bne _ _ offset | blt _ _ offset | bge _ _ offset | bltu _ _ offset | bgeu _ _ offset =>
    have heven : offset.getLsbD 0 = false := (evenOffset_iff offset).mp hwf
    exact ⟨_, rfl, by simp only [encode, rs1Of_bWord, rs2Of_bWord, immBOf_bWord _ _ _ _ _ heven]⟩

/-- A well-formed instruction of a version is decoded from its own word. -/
theorem decodeWord_encode {v : IsaVersion} {i : Instr} (hwf : i.wellFormed = true) (hv : i.inVersion v = true) :
    decodeWord v (encode i) = .ok i := by
  obtain ⟨r, hrow, hfits, hversions⟩ := encode_fits_row i
  obtain ⟨r', hrow', hbuild⟩ := row_build_encode i hwf
  obtain rfl : r = r' := Option.some.inj (hrow.symm.trans hrow')
  rw [decodeWord_of_row (List.mem_of_getElem? hrow) (hversions v hv) hfits, hbuild]

/-! The versions of a row. -/

/-- A row builds instructions of exactly the versions that have the row. -/
theorem row_build_inVersion {r : OpcodeRow} (hr : r ∈ opcodeTable) (v : IsaVersion) (w : Word) :
    (r.build w).inVersion v = r.inVersion v := by
  fin_cases hr <;> cases v <;> rfl

/-- A word decodes to an instruction of the version only. -/
theorem decodeWord_inVersion {v : IsaVersion} {w : Word} {i : Instr} (h : decodeWord v w = .ok i) :
    i.inVersion v = true := by
  obtain ⟨r, hr, hv, -, rfl⟩ := decodeWord_ok h
  rw [row_build_inVersion hr, hv]

/-! TinyRV1 in TinyRV2. -/

/-- The TinyRV2 reading of a TinyRV1 instruction: JR is a JALR form (R1, R161), all others are the same. -/
def Instr.asTinyRV2 : Instr → Instr
  | .jr rs1 => .jalr 0#5 rs1 0#12
  | i => i

/-- An instruction that TinyRV2 has itself is read as it stands. -/
theorem Instr.asTinyRV2_of_inVersion {i : Instr} (h : i.inVersion .tinyRV2 = true) : i.asTinyRV2 = i := by
  cases i with
  | jr rs1 => cases h
  | _ => rfl

/-- JR's row: the only one that TinyRV1 has and TinyRV2 has not (R141, R161). -/
def jrRow : OpcodeRow := ⟨"JR", 0x00000067#32, 0xfff07fff#32, true, false, fun w => .jr (rs1Of w)⟩

theorem rows_only_in_tinyRV1 : opcodeTable.filter (fun r => r.inRV1 && !r.inRV2) = [jrRow] := rfl

theorem eq_jrRow {r : OpcodeRow} (hr : r ∈ opcodeTable) (h1 : r.inRV1 = true) (h2 : r.inRV2 = false) : r = jrRow := by
  have hmem : r ∈ opcodeTable.filter (fun r => r.inRV1 && !r.inRV2) := List.mem_filter.mpr ⟨hr, by simp [h1, h2]⟩
  rwa [rows_only_in_tinyRV1, List.mem_singleton] at hmem

/-- A field that the mask covers is a fixed field of the row (R62). -/
theorem extractLsb'_of_and_eq {w mask pattern : Word} {lo n : Nat} (hm : w &&& mask = pattern)
    (hcover : mask.extractLsb' lo n = BitVec.allOnes n) : w.extractLsb' lo n = pattern.extractLsb' lo n := by
  rw [← hm, extract_and, hcover, BitVec.and_allOnes]

/-- A word with JR's fixed bits is the word of JR with the word's own rs1. -/
theorem eq_encode_jr {w : Word} (hm : w &&& jrRow.mask = jrRow.pattern) : w = encode (.jr (rs1Of w)) := by
  have himm : immIOf w = 0#12 := extractLsb'_of_and_eq hm rfl
  have hf3 : funct3Of w = 0b000#3 := extractLsb'_of_and_eq hm rfl
  have hrd : rdOf w = 0b00000#5 := extractLsb'_of_and_eq hm rfl
  have hop : opcodeOf w = 0b1100111#7 := extractLsb'_of_and_eq hm rfl
  calc w = iWord (immIOf w) (rs1Of w) (funct3Of w) (rdOf w) (opcodeOf w) := (iWord_fields w).symm
    _ = encode (.jr (rs1Of w)) := by rw [himm, hf3, hrd, hop]; rfl

/-- A TinyRV1 word is the same instruction in TinyRV2 (R1): by the same row, or JR's by JALR's. -/
theorem decodeWord_tinyRV2_of_tinyRV1 {w : Word} {i : Instr} (h : decodeWord .tinyRV1 w = .ok i) :
    decodeWord .tinyRV2 w = .ok i.asTinyRV2 := by
  obtain ⟨r, hr, h1, hm, rfl⟩ := decodeWord_ok h
  cases h2 : r.inRV2 with
  | true =>
    have hv : (r.build w).inVersion .tinyRV2 = true := (row_build_inVersion hr _ _).trans h2
    rw [Instr.asTinyRV2_of_inVersion hv, decodeWord_of_row (v := .tinyRV2) hr h2 hm]
  | false =>
    obtain rfl := eq_jrRow hr h1 h2
    calc decodeWord .tinyRV2 w
        = decodeWord .tinyRV2 (encode (.jr (rs1Of w))) := congrArg _ (eq_encode_jr hm)
      _ = decodeWord .tinyRV2 (encode (.jalr 0#5 (rs1Of w) 0#12)) := by rw [jrWord_eq_jalrWord]
      _ = .ok (.jalr 0#5 (rs1Of w) 0#12) := decodeWord_encode rfl rfl

/-- Settles O3: the two name lists by evaluation, membership by decoding the instruction's own word, the inclusion by
the row that matched, JR's through its JALR word. -/
theorem tinyRV1IsASubsetOfTinyRV2 : Obligations.TinyRV1IsASubsetOfTinyRV2 := by
  refine ⟨fun v i hwf => ⟨fun hv => ⟨encode i, decodeWord_encode hwf hv⟩, ?_⟩, rfl, rfl, ?_⟩
  · rintro ⟨w, h⟩
    exact decodeWord_inVersion h
  · intro w i h
    exact decodeWord_tinyRV2_of_tinyRV1 h

end Sys2Proof
end

section
/-! PROOFS. Loads from memory (44_memory_instructions.md): the effective address, the bytes of a word that is read, and
what LW does at an admitted address. -/

namespace Sys2Proof.Machine

/-- A sum may read its second operand as signed: modulo 2^n the integer sum is the same. -/
theorem add_eq_ofInt {n : Nat} (x y : BitVec n) : x + y = BitVec.ofInt n ((x.toNat : Int) + y.toInt) := by
  rw [BitVec.ofInt_add, BitVec.ofInt_natCast, BitVec.ofNat_toNat, BitVec.setWidth_eq, BitVec.ofInt_toInt]

/-- R130, R131: base plus signed offset, modulo 2^32. -/
theorem State.effectiveAddress_eq_ofInt (s : State) (rs1 : RegNum) (imm : BitVec 12) :
    s.effectiveAddress rs1 imm = BitVec.ofInt 32 (((s.readReg rs1).toNat : Int) + imm.toInt) := by
  rw [State.effectiveAddress, add_eq_ofInt, immValue_toInt]

/-- R31: the bytes of a word made of four bytes are those four, the least significant first. -/
theorem byteOfWord_wordOfBytes (b : Nat → Byte) {k : Nat} (hk : k < 4) :
    byteOfWord (wordOfBytes (b 0) (b 1) (b 2) (b 3)) k = b k := by
  apply BitVec.eq_of_getLsbD_eq
  intro i hi
  simp only [byteOfWord, wordOfBytes, BitVec.getLsbD_extractLsb', BitVec.getLsbD_append, hi, decide_true, Bool.true_and]
  interval_cases k <;> interval_cases i <;> simp

/-- R30: byte `k` of the word read at an address is the byte of memory `k` places further. -/
theorem Memory.byteOfWord_readWord (m : Memory) (a : Nat) {k : Nat} (hk : k < 4) :
    byteOfWord (m.readWord a) k = m.readByte (a + k) :=
  byteOfWord_wordOfBytes (fun j => m.readByte (a + j)) hk

/-- LW at an admitted address completes with the word of memory that is there (R130). -/
theorem exec_lw_of_admitted {s : State} {rd rs1 : RegNum} {imm : BitVec 12}
    (ha : aligned (s.effectiveAddress rs1 imm) = true) (hr : inRange (s.effectiveAddress rs1 imm) = true) :
    ∃ t, exec (.lw rd rs1 imm) s = .next t ∧
      WroteReg s t rd (s.mem.readWord (s.effectiveAddress rs1 imm).toNat) (s.pc + 4#32) := by
  have hload := State.loadWord_of_admitted (s := s) ha hr
  have hexec : exec (.lw rd rs1 imm) s = s.writeBack rd (s.mem.readWord (s.effectiveAddress rs1 imm).toNat) := by
    simp only [exec, execLw, hload]
  rw [hexec]
  exact State.writeBack_spec s rd _

/-- LW's word, field by field (R52, R63). -/
theorem encode_lw (rd rs1 : RegNum) (imm : BitVec 12) :
    encode (.lw rd rs1 imm) = imm ++ rs1 ++ 0b010#3 ++ rd ++ 0b0000011#7 := rfl

/-- LW is an instruction of both versions (R1, R2). -/
theorem lw_inVersion (v : IsaVersion) (rd rs1 : RegNum) (imm : BitVec 12) :
    (Instr.lw rd rs1 imm).inVersion v = true := by
  cases v <;> rfl

/-- Settles O26: decoding by the round trip, the frame by `writeBack`'s, the bytes by those of the word that is read. -/
theorem loadPutsTheLowestAddressLeastSignificant : Obligations.LoadPutsTheLowestAddressLeastSignificant := by
  intro s rd rs1 imm
  refine ⟨fun v => ?_, State.effectiveAddress_eq_ofInt s rs1 imm, fun hal hin => ?_⟩
  · rw [← encode_lw]
    exact decodeWord_encode rfl (lw_inVersion v rd rs1 imm)
  · obtain ⟨t, hexec, hwrote⟩ := exec_lw_of_admitted (rd := rd) ((aligned_iff _).mpr hal) ((inRange_iff _).mpr hin)
    exact ⟨t, _, hexec, hwrote, fun k hk => Memory.byteOfWord_readWord s.mem _ hk⟩

end Sys2Proof.Machine
end

section
/-! PROOFS. The bits of the five immediates (30_encoding.md R55 to R59). A bit at or above the sign bit is read at the
sign bit; below it, the bit lies in one field of the instruction. The tables' columns are the cases. -/

namespace Sys2Proof.Machine

/-- Sign extension repeats the top bit: position `k` holds the bit at `k`, or the top one if `k` is past it. -/
theorem getLsbD_signExtend_eq_min {n m : Nat} (x : BitVec (n + 1)) {k : Nat} (hk : k < m) :
    (x.signExtend m).getLsbD k = x.getLsbD (min k n) := by
  rw [BitVec.getLsbD_signExtend, BitVec.msb_eq_getLsbD_last]
  by_cases h : k < n + 1
  · simp [hk, h, Nat.min_eq_left (Nat.le_of_lt_succ h)]
  · simp [hk, h, Nat.min_eq_right (show n ≤ k by omega)]

theorem immValue_getLsbD (imm : BitVec 12) {k : Nat} (hk : k < 32) :
    (immValue imm).getLsbD k = imm.getLsbD (min k 11) :=
  getLsbD_signExtend_eq_min imm hk

theorem branchValue_getLsbD (offset : BitVec 13) {k : Nat} (hk : k < 32) :
    (branchValue offset).getLsbD k = offset.getLsbD (min k 12) :=
  getLsbD_signExtend_eq_min offset hk

theorem jumpValue_getLsbD (offset : BitVec 21) {k : Nat} (hk : k < 32) :
    (jumpValue offset).getLsbD k = offset.getLsbD (min k 20) :=
  getLsbD_signExtend_eq_min offset hk

/-- The low twelve bits of an upper immediate are zero (R58). -/
theorem upperValue_getLsbD (imm : BitVec 20) (k : Nat) :
    (upperValue imm).getLsbD k = if k < 12 then false else imm.getLsbD (k - 12) := by
  rw [upperValue, BitVec.getLsbD_append, BitVec.getLsbD_zero]

/-- Bit `j` of the field that begins at instruction bit `a` is instruction bit `a + j`. -/
theorem field_getLsbD (w : Word) {a n j i : Nat} (hj : j < n) (hi : a + j = i) :
    (w.extractLsb' a n).getLsbD j = w.getLsbD i := by
  rw [BitVec.getLsbD_extractLsb', decide_eq_true hj, Bool.true_and, hi]

section Tables
variable (w : Word) {k : Nat}

/-- R55's table. -/
theorem immI_getLsbD (hk : k < 32) :
    (immValue (immIOf w)).getLsbD k = if k < 11 then w.getLsbD (k + 20) else w.getLsbD 31 := by
  rw [immValue_getLsbD _ hk, immIOf]
  split_ifs
  all_goals exact field_getLsbD w (by omega) (by omega)

/-- R56's table. -/
theorem immS_getLsbD (hk : k < 32) :
    (immValue (immSOf w)).getLsbD k =
      if k < 5 then w.getLsbD (k + 7) else if k < 11 then w.getLsbD (k + 20) else w.getLsbD 31 := by
  rw [immValue_getLsbD _ hk]
  split_ifs
  all_goals
    simp (disch := omega) only [immSOf, BitVec.getLsbD_append, if_pos, if_neg]
    exact field_getLsbD w (by omega) (by omega)

/-- R57's table. -/
theorem immB_getLsbD (hk : k < 32) :
    (branchValue (immBOf w)).getLsbD k =
      if k = 0 then false else if k < 5 then w.getLsbD (k + 7) else if k < 11 then w.getLsbD (k + 20)
      else if k = 11 then w.getLsbD 7 else w.getLsbD 31 := by
  rw [branchValue_getLsbD _ hk]
  split_ifs with hzero
  · rw [hzero, Nat.zero_min, immBOf_even]
  all_goals
    simp (disch := omega) only [immBOf, BitVec.getLsbD_append, if_pos, if_neg]
    exact field_getLsbD w (by omega) (by omega)

/-- R58's table. -/
theorem immU_getLsbD (hk : k < 32) :
    (upperValue (immUOf w)).getLsbD k = if k < 12 then false else w.getLsbD k := by
  rw [upperValue_getLsbD]
  split_ifs
  · rfl
  · exact field_getLsbD w (by omega) (by omega)

/-- R59's table. -/
theorem immJ_getLsbD (hk : k < 32) :
    (jumpValue (immJOf w)).getLsbD k =
      if k = 0 then false else if k < 11 then w.getLsbD (k + 20) else if k = 11 then w.getLsbD 20
      else if k < 20 then w.getLsbD k else w.getLsbD 31 := by
  rw [jumpValue_getLsbD _ hk]
  split_ifs with hzero
  · rw [hzero, Nat.zero_min, immJOf_even]
  -- columns 10:5 and 4:1 are two fields, side by side in the instruction
  on_goal 1 => rcases Nat.lt_or_ge k 5 with h5 | h5
  all_goals
    simp (disch := omega) only [immJOf, BitVec.getLsbD_append, if_pos, if_neg]
    exact field_getLsbD w (by omega) (by omega)

end Tables

/-- Settles O6: each immediate's table is its own lemma. -/
theorem immediateBitsComeFromTheseInstructionBits : Obligations.ImmediateBitsComeFromTheseInstructionBits :=
  fun w _ hk => ⟨immI_getLsbD w hk, immS_getLsbD w hk, immB_getLsbD w hk, immU_getLsbD w hk, immJ_getLsbD w hk⟩

end Sys2Proof.Machine
end

section
/-! PROOFS. Register-register arithmetic (42_reg_reg_arithmetic.md): what ADD, SUB, the bitwise instructions and the
register shifts write back, and the laws of the shifts and of the two orders (R103, R104). -/

namespace Sys2Proof.Machine

/-! Instructions that write a result back. -/

section
variable {i : Instr} {s : State} {rd : RegNum} {v : Word}

/-- An instruction whose meaning is a write-back completes, and writes that result. -/
theorem exec_completes_of_writeBack (h : exec i s = s.writeBack rd v) :
    ∃ t, exec i s = .next t ∧ WroteReg s t rd v (s.pc + 4#32) := by
  rw [h]
  exact State.writeBack_spec s rd v

/-- An instruction whose meaning is a write-back completes with a result that has whatever property `v` has. -/
theorem exec_completes_of_writeBack_of_property {P : Word → Prop} (h : exec i s = s.writeBack rd v) (hv : P v) :
    ∃ t v, exec i s = .next t ∧ WroteReg s t rd v (s.pc + 4#32) ∧ P v := by
  obtain ⟨t, hexec, hwrote⟩ := exec_completes_of_writeBack h
  exact ⟨t, v, hexec, hwrote, hv⟩

end

section Results
variable (rd rs1 rs2 : RegNum) (s : State)

theorem exec_add : exec (.add rd rs1 rs2) s = s.writeBack rd (s.readReg rs1 + s.readReg rs2) := rfl

theorem exec_sub : exec (.sub rd rs1 rs2) s = s.writeBack rd (s.readReg rs1 - s.readReg rs2) := rfl

theorem exec_and : exec (.and rd rs1 rs2) s = s.writeBack rd (s.readReg rs1 &&& s.readReg rs2) := rfl

theorem exec_or : exec (.or rd rs1 rs2) s = s.writeBack rd (s.readReg rs1 ||| s.readReg rs2) := rfl

theorem exec_xor : exec (.xor rd rs1 rs2) s = s.writeBack rd (s.readReg rs1 ^^^ s.readReg rs2) := rfl

theorem exec_sra : exec (.sra rd rs1 rs2) s =
    s.writeBack rd (shiftRightArith (s.readReg rs1) (shiftCount (s.readReg rs2))) := rfl

theorem exec_srl : exec (.srl rd rs1 rs2) s =
    s.writeBack rd (shiftRightLogical (s.readReg rs1) (shiftCount (s.readReg rs2))) := rfl

theorem exec_sll : exec (.sll rd rs1 rs2) s =
    s.writeBack rd (shiftLeft (s.readReg rs1) (shiftCount (s.readReg rs2))) := rfl

end Results

/-! Sums and differences. -/

/-- ADD is an instruction of both versions (R1, R2). -/
theorem add_inVersion (v : IsaVersion) (rd rs1 rs2 : RegNum) : (Instr.add rd rs1 rs2).inVersion v = true := by
  cases v <;> rfl

/-- A sum of words is the sum of the numbers, modulo 2^n. -/
theorem add_eq_ofNat_mod {n : Nat} (x y : BitVec n) : x + y = BitVec.ofNat n ((x.toNat + y.toNat) % 2 ^ n) := by
  apply BitVec.eq_of_toNat_eq
  rw [BitVec.toNat_add, BitVec.toNat_ofNat, Nat.mod_mod]

/-- A difference of words is the difference of the numbers, which may be negative, modulo 2^n. -/
theorem sub_eq_ofInt {n : Nat} (x y : BitVec n) : x - y = BitVec.ofInt n ((x.toNat : Int) - (y.toNat : Int)) := by
  rw [BitVec.sub_eq_add_neg, Int.sub_eq_add_neg, BitVec.ofInt_add, BitVec.ofInt_neg]
  simp only [BitVec.ofInt_natCast, BitVec.ofNat_toNat, BitVec.setWidth_eq]

/-- Settles O13: the words by the round trip, the results by the model's sum and difference read as numbers. -/
theorem addAndSubWrapModulo2Pow32 : Obligations.AddAndSubWrapModulo2Pow32 := by
  intro s rd rs1 rs2
  refine ⟨fun v => decodeWord_encode (i := .add rd rs1 rs2) rfl (add_inVersion v rd rs1 rs2),
    decodeWord_encode (i := .sub rd rs1 rs2) rfl rfl, ?_, ?_⟩
  · rw [← add_eq_ofNat_mod]
    exact exec_completes_of_writeBack (exec_add rd rs1 rs2 s)
  · rw [← sub_eq_ofInt]
    exact exec_completes_of_writeBack (exec_sub rd rs1 rs2 s)

/-! Bitwise instructions. -/

/-- Settles O14: the words by the round trip, each bit by that of the model's bitwise operation. -/
theorem bitwiseRegRegActsOnEachBit : Obligations.BitwiseRegRegActsOnEachBit := by
  intro s rd rs1 rs2
  refine ⟨decodeWord_encode (i := .and rd rs1 rs2) rfl rfl, decodeWord_encode (i := .or rd rs1 rs2) rfl rfl,
    decodeWord_encode (i := .xor rd rs1 rs2) rfl rfl, ?_, ?_, ?_⟩
  · exact exec_completes_of_writeBack_of_property (exec_and rd rs1 rs2 s) fun _ => BitVec.getLsbD_and
  · exact exec_completes_of_writeBack_of_property (exec_or rd rs1 rs2 s) fun _ => BitVec.getLsbD_or
  · exact exec_completes_of_writeBack_of_property (exec_xor rd rs1 rs2 s) fun _ => BitVec.getLsbD_xor

/-! The bits of the three shifts, for every count (R97 to R99, R104). -/

section ShiftBits
variable (v : Word) (n : BitVec 5) {i : Nat}

/-- Bits move `n` places up; zeros enter below. -/
theorem shiftLeft_getLsbD (hi : i < 32) :
    (shiftLeft v n).getLsbD i = if n.toNat ≤ i then v.getLsbD (i - n.toNat) else false := by
  rw [shiftLeft, BitVec.getLsbD_shiftLeft]
  split_ifs with h
  · simp [hi, h]
  · simp [Nat.lt_of_not_le h]

/-- Bits move `n` places down; zeros enter above. -/
theorem shiftRightLogical_getLsbD :
    (shiftRightLogical v n).getLsbD i = if i + n.toNat ≤ 31 then v.getLsbD (i + n.toNat) else false := by
  rw [shiftRightLogical, BitVec.getLsbD_ushiftRight, Nat.add_comm]
  split_ifs with h
  · rfl
  · exact BitVec.getLsbD_of_ge _ _ (by omega)

/-- Bits move `n` places down; copies of bit 31 enter above. -/
theorem shiftRightArith_getLsbD (hi : i < 32) :
    (shiftRightArith v n).getLsbD i = if i + n.toNat ≤ 31 then v.getLsbD (i + n.toNat) else v.getLsbD 31 := by
  rw [shiftRightArith, BitVec.getLsbD_sshiftRight, BitVec.msb_eq_getLsbD_last, Nat.add_comm]
  simp [Nat.not_le.mpr hi, Nat.lt_succ_iff]

end ShiftBits

/-- Settles O16: the words by the round trip, each bit by that of the shift, at the count `x[rs2]` mod 32. -/
theorem registerShiftsMoveEachBit : Obligations.RegisterShiftsMoveEachBit := by
  intro s rd rs1 rs2
  refine ⟨decodeWord_encode (i := .sra rd rs1 rs2) rfl rfl, decodeWord_encode (i := .srl rd rs1 rs2) rfl rfl,
    decodeWord_encode (i := .sll rd rs1 rs2) rfl rfl, ?_⟩
  rw [← shiftCount_toNat]
  refine ⟨?_, ?_, ?_⟩
  · exact exec_completes_of_writeBack_of_property (exec_sra rd rs1 rs2 s) fun _ hi => shiftRightArith_getLsbD _ _ hi
  · exact exec_completes_of_writeBack_of_property (exec_srl rd rs1 rs2 s) fun _ _ => shiftRightLogical_getLsbD _ _
  · exact exec_completes_of_writeBack_of_property (exec_sll rd rs1 rs2 s) fun _ hi => shiftLeft_getLsbD _ _ hi

/-! The two orders (R103). -/

section Orders
variable (a b : Word)

theorem ltSigned_eq_slt : ltSigned a b = a.slt b := rfl

theorem ltUnsigned_eq_ult : ltUnsigned a b = a.ult b := rfl

theorem geSigned_eq_not_ltSigned : geSigned a b = !ltSigned a b := BitVec.sle_eq_not_slt

theorem geUnsigned_eq_not_ltUnsigned : geUnsigned a b = !ltUnsigned a b := BitVec.ule_eq_not_ult b a

end Orders

/-- Settles O24: the comparisons are those of the integers by definition; where the sign bits differ, the number with
bit 31 set is the less of the signed order and the greater of the unsigned one. -/
theorem signedAndUnsignedOrdersAgreeOnEqualSigns : Obligations.SignedAndUnsignedOrdersAgreeOnEqualSigns := by
  intro a b
  rw [← BitVec.msb_eq_getLsbD_last a, ← BitVec.msb_eq_getLsbD_last b]
  refine ⟨decide_eq_true_iff, decide_eq_true_iff, decide_eq_true_iff, decide_eq_true_iff,
    geSigned_eq_not_ltSigned a b, geUnsigned_eq_not_ltUnsigned a b, fun hsame => ?_, fun hdiff => ?_⟩
  · rw [ltSigned_eq_slt, ltUnsigned_eq_ult, BitVec.slt_eq_ult_of_msb_eq hsame]
  · rw [ltSigned_eq_slt, ltUnsigned_eq_ult, BitVec.slt_eq_not_ult_of_msb_neq hdiff]

/-! Shifts as products and quotients (R104). -/

section ShiftValues
variable (v : Word) (n : BitVec 5)

theorem shiftLeft_toNat : (shiftLeft v n).toNat = (v.toNat * 2 ^ n.toNat) % 2 ^ 32 := by
  rw [shiftLeft, BitVec.toNat_shiftLeft, Nat.shiftLeft_eq]

theorem shiftRightLogical_toNat : (shiftRightLogical v n).toNat = v.toNat / 2 ^ n.toNat := by
  rw [shiftRightLogical, BitVec.toNat_ushiftRight, Nat.shiftRight_eq_div_pow]

/-- The quotient rounds toward minus infinity: the divisor is positive, so the two roundings of the library agree. -/
theorem shiftRightArith_toInt : (shiftRightArith v n).toInt = Int.fdiv v.toInt (2 ^ n.toNat) := by
  have hpos : (0 : Int) ≤ 2 ^ n.toNat := by positivity
  rw [shiftRightArith, BitVec.toInt_sshiftRight, Int.shiftRight_eq_div_pow, Int.fdiv_eq_ediv_of_nonneg _ hpos,
    Nat.cast_pow, Nat.cast_ofNat]

end ShiftValues

/-- Settles O25: each value by the shift's own lemma; a filled bit is one the shift moved in from outside the word. -/
theorem shiftsScaleByPowersOfTwo : Obligations.ShiftsScaleByPowersOfTwo := by
  intro v n
  have hn : n.toNat < 32 := shiftCount_lt n
  refine ⟨by omega, shiftCount_toNat v, shiftLeft_toNat v n, shiftRightLogical_toNat v n, shiftRightArith_toInt v n,
    fun i hi => ?_, fun i hfill hi => ?_⟩
  · rw [shiftLeft_getLsbD v n (by omega), if_neg (by omega)]
  · rw [shiftRightLogical_getLsbD, shiftRightArith_getLsbD v n hi, if_neg (by omega), if_neg (by omega)]
    exact ⟨rfl, rfl⟩

end Sys2Proof.Machine
end

section
/-! PROOFS. Register-immediate arithmetic (43_reg_imm_arithmetic.md): what ADDI, the bitwise instructions, the immediate
shifts, LUI and AUIPC write back. The immediate enters through its value (R55, R58): as a number for the sums, bit by
bit for the bitwise instructions. -/

namespace Sys2Proof.Machine

section Results
variable (rd rs1 : RegNum) (imm : BitVec 12) (shamt : BitVec 5) (upper : BitVec 20) (s : State)

theorem exec_addi : exec (.addi rd rs1 imm) s = s.writeBack rd (s.readReg rs1 + immValue imm) := rfl

theorem exec_andi : exec (.andi rd rs1 imm) s = s.writeBack rd (s.readReg rs1 &&& immValue imm) := rfl

theorem exec_ori : exec (.ori rd rs1 imm) s = s.writeBack rd (s.readReg rs1 ||| immValue imm) := rfl

theorem exec_xori : exec (.xori rd rs1 imm) s = s.writeBack rd (s.readReg rs1 ^^^ immValue imm) := rfl

theorem exec_srai : exec (.srai rd rs1 shamt) s = s.writeBack rd (shiftRightArith (s.readReg rs1) shamt) := rfl

theorem exec_srli : exec (.srli rd rs1 shamt) s = s.writeBack rd (shiftRightLogical (s.readReg rs1) shamt) := rfl

theorem exec_slli : exec (.slli rd rs1 shamt) s = s.writeBack rd (shiftLeft (s.readReg rs1) shamt) := rfl

theorem exec_lui : exec (.lui rd upper) s = s.writeBack rd (upperValue upper) := rfl

theorem exec_auipc : exec (.auipc rd upper) s = s.writeBack rd (s.pc + upperValue upper) := rfl

end Results

/-! Sums with the signed immediate. -/

/-- ADDI is an instruction of both versions (R1, R2). -/
theorem addi_inVersion (v : IsaVersion) (rd rs1 : RegNum) (imm : BitVec 12) :
    (Instr.addi rd rs1 imm).inVersion v = true := by
  cases v <;> rfl

/-- Settles O18: the word by the round trip; the sum is that of the integers modulo 2^32, and sign extension keeps the
immediate's integer. -/
theorem addiAddsTheSignedImmediate : Obligations.AddiAddsTheSignedImmediate := by
  intro s rd rs1 imm
  refine ⟨fun v => decodeWord_encode (i := .addi rd rs1 imm) rfl (addi_inVersion v rd rs1 imm), ?_⟩
  rw [← immValue_toInt, ← add_eq_ofInt]
  exact exec_completes_of_writeBack (exec_addi rd rs1 imm s)

/-! Bitwise instructions. -/

/-- Settles O19: the words by the round trip, each bit by that of the model's bitwise operation, with the bit of the
sign-extended immediate read in the field. -/
theorem bitwiseRegImmUsesTheSignExtendedImmediate : Obligations.BitwiseRegImmUsesTheSignExtendedImmediate := by
  intro s rd rs1 imm
  refine ⟨decodeWord_encode (i := .andi rd rs1 imm) rfl rfl, decodeWord_encode (i := .ori rd rs1 imm) rfl rfl,
    decodeWord_encode (i := .xori rd rs1 imm) rfl rfl, ?_, ?_, ?_⟩
  · refine exec_completes_of_writeBack_of_property (exec_andi rd rs1 imm s) fun i hi => ?_
    rw [BitVec.getLsbD_and, immValue_getLsbD imm hi]
  · refine exec_completes_of_writeBack_of_property (exec_ori rd rs1 imm s) fun i hi => ?_
    rw [BitVec.getLsbD_or, immValue_getLsbD imm hi]
  · refine exec_completes_of_writeBack_of_property (exec_xori rd rs1 imm s) fun i hi => ?_
    rw [BitVec.getLsbD_xor, immValue_getLsbD imm hi]

/-! Shifts by the field. -/

/-- Settles O21: the words by the round trip, each bit by that of the shift, at the count the field holds. -/
theorem immediateShiftsMoveEachBit : Obligations.ImmediateShiftsMoveEachBit := by
  intro s rd rs1 shamt
  refine ⟨decodeWord_encode (i := .srai rd rs1 shamt) rfl rfl, decodeWord_encode (i := .srli rd rs1 shamt) rfl rfl,
    decodeWord_encode (i := .slli rd rs1 shamt) rfl rfl, ?_, ?_, ?_⟩
  · exact exec_completes_of_writeBack_of_property (exec_srai rd rs1 shamt s) fun _ hi => shiftRightArith_getLsbD _ _ hi
  · exact exec_completes_of_writeBack_of_property (exec_srli rd rs1 shamt s) fun _ _ => shiftRightLogical_getLsbD _ _
  · exact exec_completes_of_writeBack_of_property (exec_slli rd rs1 shamt s) fun _ hi => shiftLeft_getLsbD _ _ hi

/-! Upper immediates. -/

/-- R58: the upper immediate is 2^12 times the field, as a word. -/
theorem upperValue_eq_ofNat (imm : BitVec 20) : upperValue imm = BitVec.ofNat 32 (imm.toNat * 4096) := by
  rw [← upperValue_toNat, BitVec.ofNat_toNat, BitVec.setWidth_eq]

/-- Settles O22: the words by the round trip, LUI's result as the upper immediate's number, AUIPC's as the sum of that
and the old pc, modulo 2^32. -/
theorem luiAndAuipcPlaceTheUpperImmediate : Obligations.LuiAndAuipcPlaceTheUpperImmediate := by
  intro s rd imm
  refine ⟨decodeWord_encode (i := .lui rd imm) rfl rfl, decodeWord_encode (i := .auipc rd imm) rfl rfl, ?_, ?_⟩
  · rw [← upperValue_eq_ofNat]
    exact exec_completes_of_writeBack (exec_lui rd imm s)
  · rw [← upperValue_toNat, ← add_eq_ofNat_mod]
    exact exec_completes_of_writeBack (exec_auipc rd imm s)

end Sys2Proof.Machine
end

section
/-! PROOFS. Unconditional jumps (45_jumps.md): an instruction whose meaning is `linkTo` completes with its link and its
target; the link and JAL's target read as numbers modulo 2^32. -/

namespace Sys2Proof.Machine

section
variable {i : Instr} {s : State} {rd : RegNum} {p : Word}

/-- An instruction whose meaning is a link and a jump completes, with that link and that target. -/
theorem exec_completes_of_linkTo (h : exec i s = s.linkTo rd p) :
    ∃ t, exec i s = .next t ∧ WroteReg s t rd (s.pc + 4#32) p := by
  rw [h]
  exact State.linkTo_spec s rd p

end

/-- R14: the link value is the address of the instruction after the jump, modulo 2^32. -/
theorem State.link_eq_ofNat_mod (s : State) : s.pc + 4#32 = BitVec.ofNat 32 ((s.pc.toNat + 4) % 2 ^ 32) :=
  add_eq_ofNat_mod s.pc 4#32

/-- R59, R140: JAL's target is its own address plus the signed offset, modulo 2^32. -/
theorem State.relative_jumpValue_eq_ofInt (s : State) (off : BitVec 21) :
    s.relative (jumpValue off) = BitVec.ofInt 32 ((s.pc.toNat : Int) + off.toInt) := by
  rw [State.relative, add_eq_ofInt, jumpValue_toInt]

theorem exec_jal (rd : RegNum) (off : BitVec 21) (s : State) :
    exec (.jal rd off) s = s.linkTo rd (s.relative (jumpValue off)) := rfl

/-- JAL is an instruction of both versions (R1, R2). -/
theorem jal_inVersion (v : IsaVersion) (rd : RegNum) (off : BitVec 21) : (Instr.jal rd off).inVersion v = true := by
  cases v <;> rfl

/-- Settles O34: the word by the round trip, for which evenness is well-formedness; link and target by `linkTo`, read
as numbers. -/
theorem jalLinksAndJumpsRelative : Obligations.JalLinksAndJumpsRelative := by
  intro s rd off
  refine ⟨fun heven v => ?_, ?_⟩
  · have hwf : (Instr.jal rd off).wellFormed = true := (evenOffset_iff off).mpr heven
    exact decodeWord_encode (i := .jal rd off) hwf (jal_inVersion v rd off)
  · rw [← s.link_eq_ofNat_mod, ← s.relative_jumpValue_eq_ofInt off]
    exact exec_completes_of_linkTo (exec_jal rd off s)

end Sys2Proof.Machine
end

section
/-! PROOFS. Conditional branches (46_branches.md): an instruction whose meaning is `branchTo` completes at one of its two
successors, and touches nothing but the pc; equality of words said bit by bit. -/

namespace Sys2Proof.Machine

/-- R57, R150 to R155: a branch's target is its own address plus the signed offset, modulo 2^32. -/
theorem State.relative_branchValue_eq_ofInt (s : State) (off : BitVec 13) :
    s.relative (branchValue off) = BitVec.ofInt 32 ((s.pc.toNat : Int) + off.toInt) := by
  rw [State.relative, add_eq_ofInt, branchValue_toInt]

/-- An instruction whose meaning is a branch completes, at its target if the condition that its flag decides holds and
at the next instruction otherwise. -/
theorem exec_completes_of_branchTo {i : Instr} {s : State} {taken : Bool} {off : BitVec 13} {cond : Prop}
    [Decidable cond] (h : exec i s = s.branchTo taken (s.relative (branchValue off))) (htaken : taken = true ↔ cond) :
    ∃ t, exec i s = .next t ∧
      OnlyPc s t (if cond then BitVec.ofInt 32 ((s.pc.toNat : Int) + off.toInt) else s.pc + 4#32) := by
  simp only [h, ← s.relative_branchValue_eq_ofInt off, ← htaken]
  exact State.branchTo_spec s taken _

section Equality
variable (rs1 rs2 : RegNum) (off : BitVec 13) (s : State)

theorem exec_beq : exec (.beq rs1 rs2 off) s =
    s.branchTo (s.readReg rs1 == s.readReg rs2) (s.relative (branchValue off)) := rfl

theorem exec_bne : exec (.bne rs1 rs2 off) s =
    s.branchTo (s.readReg rs1 != s.readReg rs2) (s.relative (branchValue off)) := rfl

/-- BNE is an instruction of both versions (R1, R2). -/
theorem bne_inVersion (v : IsaVersion) : (Instr.bne rs1 rs2 off).inVersion v = true := by
  cases v <;> rfl

end Equality

section Bits
variable {n : Nat} (x y : BitVec n)

/-- BEQ's condition, bit by bit (R150). -/
theorem beq_iff_forall_getLsbD_eq : (x == y) = true ↔ ∀ k < n, x.getLsbD k = y.getLsbD k := by
  rw [beq_iff_eq]
  exact ⟨fun heq _ _ => heq ▸ rfl, BitVec.eq_of_getLsbD_eq⟩

/-- BNE's condition, bit by bit (R151). -/
theorem bne_iff_exists_getLsbD_ne : (x != y) = true ↔ ∃ k < n, x.getLsbD k ≠ y.getLsbD k := by
  rw [bne_iff_ne, ne_eq, ← beq_iff_eq, beq_iff_forall_getLsbD_eq]
  simp only [not_forall, exists_prop, ne_eq]

end Bits

/-- Settles O38: the words by the round trip, for which evenness is well-formedness; the successor by `branchTo`, whose
flag is the comparison of the registers, said bit by bit. -/
theorem equalityBranchesChooseBetweenTwoSuccessors : Obligations.EqualityBranchesChooseBetweenTwoSuccessors := by
  intro s rs1 rs2 off
  refine ⟨fun heven => ?_, ?_, ?_⟩
  · have hwf : evenOffset off = true := (evenOffset_iff off).mpr heven
    exact ⟨decodeWord_encode (i := .beq rs1 rs2 off) hwf rfl,
      fun v => decodeWord_encode (i := .bne rs1 rs2 off) hwf (bne_inVersion rs1 rs2 off v)⟩
  · exact exec_completes_of_branchTo (exec_beq rs1 rs2 off s) (beq_iff_forall_getLsbD_eq _ _)
  · exact exec_completes_of_branchTo (exec_bne rs1 rs2 off s) (bne_iff_exists_getLsbD_ne _ _)

end Sys2Proof.Machine
end

section
/-! PROOFS. Pseudo-instructions (47_pseudo_instructions.md): a write or a link into x0 leaves only the change of the pc,
so `addi x0, x0, 0` is NOP (R160) and `jalr x0, rs1, 0` is JR (R161). -/

namespace Sys2Proof.Machine

/-! Writes into x0. -/

/-- R11: x0 read as zero before the write too, so an instruction that writes x0 has changed the pc only. -/
theorem WroteReg.onlyPc {s t : State} {v p : Word} (h : WroteReg s t 0#5 v p) : OnlyPc s t p where
  regs r := by
    by_cases hr : r = 0#5
    · rw [hr, State.readReg_zero, State.readReg_zero]
    · exact h.others r hr
  pc := h.pc
  rest := h.rest

/-- R11: a jump that links into x0 jumps and does nothing else. -/
theorem State.linkTo_zero (s : State) (p : Word) : s.linkTo 0#5 p = .next (s.setPc p) := rfl

/-! NOP. -/

/-- R160: the word of NOP is that of `addi x0, x0, 0`. -/
theorem encode_nop : encode (.addi 0#5 0#5 0#12) = 0x00000013#32 := rfl

/-- Settles O40: the word by the round trip; the write-back goes into x0, and leaves the change of the pc. -/
theorem nopOnlyAdvancesThePc : Obligations.NopOnlyAdvancesThePc := by
  refine ⟨fun v => ?_, fun s => ?_⟩
  · rw [← encode_nop]
    exact decodeWord_encode rfl (addi_inVersion v _ _ _)
  · obtain ⟨t, hexec, hwrote⟩ := exec_completes_of_writeBack (exec_addi 0#5 0#5 0#12 s)
    exact ⟨t, hexec, hwrote.onlyPc⟩

/-! JR. -/

theorem immValue_zero : immValue 0#12 = 0#32 := rfl

section Jumps
variable (rd rs1 : RegNum) (imm : BitVec 12) (s : State)

theorem exec_jalr : exec (.jalr rd rs1 imm) s = s.linkTo rd (clearBit0 (s.readReg rs1 + immValue imm)) := rfl

/-- R161: `jalr x0, rs1, 0` goes to the register with bit 0 cleared, in either version. -/
theorem exec_jalr_zero_zero : exec (.jalr 0#5 rs1 0#12) s = .next (s.setPc (clearBit0 (s.readReg rs1))) := by
  rw [exec_jalr, State.linkTo_zero, immValue_zero, BitVec.add_zero]

variable {s}

/-- R141: TinyRV1's JR goes to the register as it stands. -/
theorem exec_jr_tinyRV1 (hv : s.version = .tinyRV1) : exec (.jr rs1) s = .next (s.setPc (s.readReg rs1)) := by
  simp only [exec, execJr, hv]

/-- R141: TinyRV2's JR clears bit 0 of the target. -/
theorem exec_jr_tinyRV2 (hv : s.version = .tinyRV2) :
    exec (.jr rs1) s = .next (s.setPc (clearBit0 (s.readReg rs1))) := by
  simp only [exec, execJr, hv]

end Jumps

/-- Settles O37: TinyRV1 reads the word as JR by the round trip, and TinyRV2 reads every TinyRV1 word by R1's inclusion;
the two targets are the same in TinyRV2, and in TinyRV1 when clearing bit 0 keeps the register's value. -/
theorem jrIsJalrWithX0AndZero : Obligations.JrIsJalrWithX0AndZero := by
  intro rs1
  have hjr : decodeWord .tinyRV1 (encode (.jr rs1)) = .ok (.jr rs1) := decodeWord_encode rfl rfl
  refine ⟨decodeWord_tinyRV2_of_tinyRV1 hjr, hjr, fun s hv => ?_, fun s hv heven => ?_⟩
  · rw [exec_jalr_zero_zero, exec_jr_tinyRV2 rs1 hv]
  · rw [exec_jalr_zero_zero, exec_jr_tinyRV1 rs1 hv, clearBit0_of_even heven]

end Sys2Proof.Machine
end

section
/-! PROOFS. The round trip of decoding and encoding (30_encoding.md section 4), and the words that no row matches
(section 5). A masked word is compared field by field; the fields a row's mask covers are the row's fixed fields. -/

namespace Sys2Proof

/-! Encoding a decoded word. A word with a row's fixed bits is its format's layout of the row's fixed fields and of its
own operand fields. -/

section FixedFields
variable {w p : Word} {f7 : BitVec 7} {rs1 rd : RegNum} {f3 : BitVec 3} {op : BitVec 7}

theorem rWord_of_and_eq (hm : w &&& 0xfe00707f#32 = p) (hf7 : funct7Of p = f7) (hf3 : funct3Of p = f3)
    (hop : opcodeOf p = op) : rWord f7 (rs2Of w) (rs1Of w) f3 (rdOf w) op = w := by
  have hf7 : funct7Of w = f7 := (extractLsb'_of_and_eq hm rfl).trans hf7
  have hf3 : funct3Of w = f3 := (extractLsb'_of_and_eq hm rfl).trans hf3
  have hop : opcodeOf w = op := (extractLsb'_of_and_eq hm rfl).trans hop
  rw [← hf7, ← hf3, ← hop, rWord_fields]

theorem iWord_of_and_eq (hm : w &&& 0x0000707f#32 = p) (hf3 : funct3Of p = f3) (hop : opcodeOf p = op) :
    iWord (immIOf w) (rs1Of w) f3 (rdOf w) op = w := by
  have hf3 : funct3Of w = f3 := (extractLsb'_of_and_eq hm rfl).trans hf3
  have hop : opcodeOf w = op := (extractLsb'_of_and_eq hm rfl).trans hop
  rw [← hf3, ← hop, iWord_fields]

theorem csrrWord_of_and_eq (hm : w &&& 0x000ff07f#32 = p) (hrs1 : rs1Of p = rs1) (hf3 : funct3Of p = f3)
    (hop : opcodeOf p = op) : iWord (csrOf w) rs1 f3 (rdOf w) op = w := by
  have hrs1 : rs1Of w = rs1 := (extractLsb'_of_and_eq hm rfl).trans hrs1
  have hf3 : funct3Of w = f3 := (extractLsb'_of_and_eq hm rfl).trans hf3
  have hop : opcodeOf w = op := (extractLsb'_of_and_eq hm rfl).trans hop
  rw [← hrs1, ← hf3, ← hop]
  exact iWord_fields w

theorem csrwWord_of_and_eq (hm : w &&& 0x00007fff#32 = p) (hrd : rdOf p = rd) (hf3 : funct3Of p = f3)
    (hop : opcodeOf p = op) : iWord (csrOf w) (rs1Of w) f3 rd op = w := by
  have hrd : rdOf w = rd := (extractLsb'_of_and_eq hm rfl).trans hrd
  have hf3 : funct3Of w = f3 := (extractLsb'_of_and_eq hm rfl).trans hf3
  have hop : opcodeOf w = op := (extractLsb'_of_and_eq hm rfl).trans hop
  rw [← hrd, ← hf3, ← hop]
  exact iWord_fields w

theorem sWord_of_and_eq (hm : w &&& 0x0000707f#32 = p) (hf3 : funct3Of p = f3) (hop : opcodeOf p = op) :
    sWord (immSOf w) (rs2Of w) (rs1Of w) f3 op = w := by
  have hf3 : funct3Of w = f3 := (extractLsb'_of_and_eq hm rfl).trans hf3
  have hop : opcodeOf w = op := (extractLsb'_of_and_eq hm rfl).trans hop
  rw [← hf3, ← hop, sWord_fields]

theorem bWord_of_and_eq (hm : w &&& 0x0000707f#32 = p) (hf3 : funct3Of p = f3) (hop : opcodeOf p = op) :
    bWord (immBOf w) (rs2Of w) (rs1Of w) f3 op = w := by
  have hf3 : funct3Of w = f3 := (extractLsb'_of_and_eq hm rfl).trans hf3
  have hop : opcodeOf w = op := (extractLsb'_of_and_eq hm rfl).trans hop
  rw [← hf3, ← hop, bWord_fields]

theorem uWord_of_and_eq (hm : w &&& 0x0000007f#32 = p) (hop : opcodeOf p = op) :
    uWord (immUOf w) (rdOf w) op = w := by
  have hop : opcodeOf w = op := (extractLsb'_of_and_eq hm rfl).trans hop
  rw [← hop, uWord_fields]

theorem jWord_of_and_eq (hm : w &&& 0x0000007f#32 = p) (hop : opcodeOf p = op) :
    jWord (immJOf w) (rdOf w) op = w := by
  have hop : opcodeOf w = op := (extractLsb'_of_and_eq hm rfl).trans hop
  rw [← hop, jWord_fields]

end FixedFields

/-- The instruction a row reads from a word with the row's fixed bits has an encoding, and it is that word. -/
def OpcodeRow.RoundTrips (r : OpcodeRow) : Prop :=
  ∀ w, w &&& r.mask = r.pattern → encode (r.build w) = w ∧ (r.build w).wellFormed = true

theorem csrRows_roundTrip {r : OpcodeRow} (hr : r ∈ csrRows) : r.RoundTrips := by
  fin_cases hr
  · exact fun _ hm => ⟨csrrWord_of_and_eq hm rfl rfl rfl, rfl⟩
  · exact fun _ hm => ⟨csrwWord_of_and_eq hm rfl rfl rfl, rfl⟩

theorem regRegRows_roundTrip {r : OpcodeRow} (hr : r ∈ regRegRows) : r.RoundTrips := by
  fin_cases hr
  all_goals exact fun _ hm => ⟨rWord_of_and_eq hm rfl rfl rfl, rfl⟩

theorem regImmRows_roundTrip {r : OpcodeRow} (hr : r ∈ regImmRows) : r.RoundTrips := by
  fin_cases hr
  iterate 6 exact fun _ hm => ⟨iWord_of_and_eq hm rfl rfl, rfl⟩
  iterate 3 exact fun _ hm => ⟨rWord_of_and_eq hm rfl rfl rfl, rfl⟩
  iterate 2 exact fun _ hm => ⟨uWord_of_and_eq hm rfl, rfl⟩

theorem memoryRows_roundTrip {r : OpcodeRow} (hr : r ∈ memoryRows) : r.RoundTrips := by
  fin_cases hr
  · exact fun _ hm => ⟨iWord_of_and_eq hm rfl rfl, rfl⟩
  · exact fun _ hm => ⟨sWord_of_and_eq hm rfl rfl, rfl⟩

theorem jumpRows_roundTrip {r : OpcodeRow} (hr : r ∈ jumpRows) : r.RoundTrips := by
  fin_cases hr
  · exact fun w hm => ⟨jWord_of_and_eq hm rfl, (evenOffset_iff _).mpr (immJOf_even w)⟩
  · exact fun _ hm => ⟨(eq_encode_jr hm).symm, rfl⟩
  · exact fun _ hm => ⟨iWord_of_and_eq hm rfl rfl, rfl⟩

theorem branchRows_roundTrip {r : OpcodeRow} (hr : r ∈ branchRows) : r.RoundTrips := by
  fin_cases hr
  all_goals exact fun w hm => ⟨bWord_of_and_eq hm rfl rfl, (evenOffset_iff _).mpr (immBOf_even w)⟩

theorem opcodeTable_roundTrip {r : OpcodeRow} (hr : r ∈ opcodeTable) : r.RoundTrips := by
  simp only [opcodeTable, List.mem_append] at hr
  obtain ((((hr | hr) | hr) | hr) | hr) | hr := hr
  · exact csrRows_roundTrip hr
  · exact regRegRows_roundTrip hr
  · exact regImmRows_roundTrip hr
  · exact memoryRows_roundTrip hr
  · exact jumpRows_roundTrip hr
  · exact branchRows_roundTrip hr

/-- What a word decodes to has an encoding (R57, R59). -/
theorem decodeWord_wellFormed {v : IsaVersion} {w : Word} {i : Instr} (h : decodeWord v w = .ok i) :
    i.wellFormed = true := by
  obtain ⟨r, hr, -, hm, rfl⟩ := decodeWord_ok h
  exact (opcodeTable_roundTrip hr w hm).2

/-- Encoding undoes decoding (R62, R63). -/
theorem encode_of_decodeWord {v : IsaVersion} {w : Word} {i : Instr} (h : decodeWord v w = .ok i) : encode i = w := by
  obtain ⟨r, hr, -, hm, rfl⟩ := decodeWord_ok h
  exact (opcodeTable_roundTrip hr w hm).1

/-- Settles O1: decoding undoes encoding; TinyRV2 reads the JR word as it reads every TinyRV1 word. -/
theorem decodeOfEncodeIsTheInstruction : Obligations.DecodeOfEncodeIsTheInstruction :=
  ⟨fun _ _ hwf hv => decodeWord_encode hwf hv,
    fun rs1 => decodeWord_tinyRV2_of_tinyRV1 (decodeWord_encode (i := .jr rs1) rfl rfl)⟩

/-- Settles O2: the row that matched gives the word back, and belongs to the version. -/
theorem encodeOfDecodeIsTheWord : Obligations.EncodeOfDecodeIsTheWord :=
  fun _ _ _ h => ⟨encode_of_decodeWord h, decodeWord_wellFormed h, decodeWord_inVersion h⟩

/-- Settles O7: each printed word is the encoding of the instruction printed beside it. -/
theorem printedWordsDecode : Obligations.PrintedWordsDecode :=
  ⟨decodeWord_encode (i := .csrr 5#5 0xfc0#12) rfl rfl, decodeWord_encode (i := .csrw 0x7c0#12 5#5) rfl rfl,
    decodeWord_encode (i := .sub 3#5 1#5 2#5) rfl rfl, decodeWord_encode (i := .mul 31#5 30#5 29#5) rfl rfl,
    decodeWord_encode (i := .addi 5#5 6#5 (-1)) rfl rfl, decodeWord_encode (i := .srai 3#5 1#5 31#5) rfl rfl,
    decodeWord_encode (i := .lui 3#5 0x12345#20) rfl rfl, decodeWord_encode (i := .lw 5#5 2#5 8#12) rfl rfl,
    decodeWord_encode (i := .sw 5#5 2#5 (-4)) rfl rfl, decodeWord_encode (i := .jal 0#5 (-8)) rfl rfl,
    decodeWord_encode (i := .jalr 0#5 31#5 0#12) rfl rfl, decodeWord_encode (i := .jr 31#5) rfl rfl,
    decodeWord_encode (i := .beq 1#5 2#5 (-4)) rfl rfl⟩

end Sys2Proof
end

section
/-! PROOFS. The words that no row of TinyRV2's table matches (30_encoding.md section 5, D2, D3): each group of rows
matches words of its own opcodes only. -/

namespace Sys2Proof

/-! A masked word, field by field. -/

/-- Words are equal when their fields are (R51, R54). -/
theorem word_eq_iff_fields {x y : Word} :
    x = y ↔ funct7Of x = funct7Of y ∧ rs2Of x = rs2Of y ∧ rs1Of x = rs1Of y ∧ funct3Of x = funct3Of y ∧
      rdOf x = rdOf y ∧ opcodeOf x = opcodeOf y := by
  refine ⟨fun h => by simp only [h, and_self], fun ⟨hf7, hrs2, hrs1, hf3, hrd, hop⟩ => ?_⟩
  rw [← rWord_fields x, ← rWord_fields y, hf7, hrs2, hrs1, hf3, hrd, hop]

/-- A word has a row's fixed bits when each of its fields has those that the mask keeps of it (R62). -/
theorem and_eq_iff_fields {w mask pattern : Word} :
    w &&& mask = pattern ↔
      funct7Of w &&& mask.extractLsb' 25 7 = pattern.extractLsb' 25 7 ∧
      rs2Of w &&& mask.extractLsb' 20 5 = pattern.extractLsb' 20 5 ∧
      rs1Of w &&& mask.extractLsb' 15 5 = pattern.extractLsb' 15 5 ∧
      funct3Of w &&& mask.extractLsb' 12 3 = pattern.extractLsb' 12 3 ∧
      rdOf w &&& mask.extractLsb' 7 5 = pattern.extractLsb' 7 5 ∧
      opcodeOf w &&& mask.extractLsb' 0 7 = pattern.extractLsb' 0 7 := by
  rw [word_eq_iff_fields]
  simp only [funct7Of, rs2Of, rs1Of, funct3Of, rdOf, opcodeOf, extract_and]

theorem and_full7 (x : BitVec 7) : x &&& 0x7f#7 = x := BitVec.and_allOnes

theorem and_full5 (x : BitVec 5) : x &&& 0x1f#5 = x := BitVec.and_allOnes

theorem and_full3 (x : BitVec 3) : x &&& 0x7#3 = x := BitVec.and_allOnes

theorem funct3_cases : ∀ f3 : BitVec 3,
    f3 = 0#3 ∨ f3 = 1#3 ∨ f3 = 2#3 ∨ f3 = 3#3 ∨ f3 = 4#3 ∨ f3 = 5#3 ∨ f3 = 6#3 ∨ f3 = 7#3 := by
  decide

/-! The rows of TinyRV2, group by group. -/

/-- No row that TinyRV2 has among these matches the word. -/
def NoneMatches (rows : List OpcodeRow) (w : Word) : Prop :=
  ∀ r ∈ rows, r.inVersion .tinyRV2 = true → w &&& r.mask ≠ r.pattern

theorem noneMatches_append {a b : List OpcodeRow} {w : Word} :
    NoneMatches (a ++ b) w ↔ NoneMatches a w ∧ NoneMatches b w := by
  simp only [NoneMatches, List.mem_append, or_imp, forall_and]

/-- The rows are tried one after another. -/
theorem noneMatches_cons {r : OpcodeRow} {rows : List OpcodeRow} {w : Word} :
    NoneMatches (r :: rows) w ↔ (r.inRV2 = true → w &&& r.mask ≠ r.pattern) ∧ NoneMatches rows w :=
  List.forall_mem_cons

theorem noneMatches_nil {w : Word} : NoneMatches [] w := fun _ h => absurd h List.not_mem_nil

section Groups
variable (w : Word)

theorem noneMatches_csrRows : NoneMatches csrRows w ↔ (opcodeOf w = 0x73#7 →
    ¬(funct3Of w = 2#3 ∧ rs1Of w = 0#5) ∧ ¬(funct3Of w = 1#3 ∧ rdOf w = 0#5)) := by
  by_cases hop : opcodeOf w = 0x73#7
  all_goals
    simp [csrRows, noneMatches_cons, noneMatches_nil, and_eq_iff_fields, and_full7, and_full5, and_full3, hop,
      imp_not_comm]

theorem noneMatches_regRegRows : NoneMatches regRegRows w ↔ (opcodeOf w = 0x33#7 →
    (funct7Of w, funct3Of w) ∉ [(0#7, 0#3), (0x20#7, 0#3), (0#7, 7#3), (0#7, 6#3), (0#7, 4#3), (0#7, 2#3), (0#7, 3#3),
      (0x20#7, 5#3), (0#7, 5#3), (0#7, 1#3), (1#7, 0#3)]) := by
  by_cases hop : opcodeOf w = 0x33#7
  all_goals
    simp [regRegRows, noneMatches_cons, noneMatches_nil, and_eq_iff_fields, and_full7, and_full3, hop]

theorem noneMatches_regImmRows : NoneMatches regImmRows w ↔
    (opcodeOf w = 0x13#7 → (funct3Of w = 1#3 ∧ funct7Of w ≠ 0#7) ∨
      (funct3Of w = 5#3 ∧ funct7Of w ≠ 0#7 ∧ funct7Of w ≠ 0x20#7)) ∧
    opcodeOf w ≠ 0x37#7 ∧ opcodeOf w ≠ 0x17#7 := by
  by_cases hop : opcodeOf w = 0x13#7
  all_goals
    obtain hf3 | hf3 | hf3 | hf3 | hf3 | hf3 | hf3 | hf3 := funct3_cases (funct3Of w)
  all_goals
    simp [regImmRows, noneMatches_cons, noneMatches_nil, and_eq_iff_fields, and_full7, and_full3, hop, hf3, and_comm]

theorem noneMatches_memoryRows : NoneMatches memoryRows w ↔
    ¬(funct3Of w = 2#3 ∧ opcodeOf w = 0x03#7) ∧ ¬(funct3Of w = 2#3 ∧ opcodeOf w = 0x23#7) := by
  simp [memoryRows, noneMatches_cons, noneMatches_nil, and_eq_iff_fields, and_full7, and_full3]

theorem noneMatches_jumpRows : NoneMatches jumpRows w ↔
    opcodeOf w ≠ 0x6f#7 ∧ ¬(funct3Of w = 0#3 ∧ opcodeOf w = 0x67#7) := by
  simp [jumpRows, noneMatches_cons, noneMatches_nil, and_eq_iff_fields, and_full7, and_full3]

theorem noneMatches_branchRows : NoneMatches branchRows w ↔
    (opcodeOf w = 0x63#7 → funct3Of w = 2#3 ∨ funct3Of w = 3#3) := by
  obtain hf3 | hf3 | hf3 | hf3 | hf3 | hf3 | hf3 | hf3 := funct3_cases (funct3Of w)
  all_goals
    simp [branchRows, noneMatches_cons, noneMatches_nil, and_eq_iff_fields, and_full7, and_full3, hf3]

/-- TinyRV2 rejects a word that the rows of every group leave out. -/
theorem decodeWord_error_iff_groups : decodeWord .tinyRV2 w = .error (.notAnInstruction w) ↔
    ((((NoneMatches csrRows w ∧ NoneMatches regRegRows w) ∧ NoneMatches regImmRows w) ∧ NoneMatches memoryRows w) ∧
      NoneMatches jumpRows w) ∧ NoneMatches branchRows w := by
  rw [decodeWord_error_iff, ← noneMatches_append, ← noneMatches_append, ← noneMatches_append, ← noneMatches_append,
    ← noneMatches_append]
  rfl

end Groups

/-- Settles O4: for each of the ten opcodes, what its group of rows leaves out; for any other, no row is left. -/
theorem wordsOutsideTheTableAreExactlyTheseRejected : Obligations.WordsOutsideTheTableAreExactlyTheseRejected := by
  intro w
  rw [decodeWord_error_iff_groups, noneMatches_csrRows, noneMatches_regRegRows, noneMatches_regImmRows,
    noneMatches_memoryRows, noneMatches_jumpRows, noneMatches_branchRows]
  simp only [opcodeOf, funct3Of, funct7Of, rs1Of, rdOf]
  generalize w.extractLsb' 0 7 = op
  by_cases hop : op ∈ [0x33#7, 0x13#7, 0x37#7, 0x17#7, 0x03#7, 0x23#7, 0x6f#7, 0x67#7, 0x63#7, 0x73#7]
  · fin_cases hop
    all_goals simp
  · have hnone := hop
    simp only [List.mem_cons, List.not_mem_nil, or_false, not_or] at hnone
    simp [hnone]

end Sys2Proof

namespace Sys2Proof.Machine

/-! The general CSR words (R162, D3). -/

theorem opcodeOf_iWord (imm : BitVec 12) (rs1 : RegNum) (f3 : BitVec 3) (rd : RegNum) (op : BitVec 7) :
    opcodeOf (iWord imm rs1 f3 rd op) = op := by
  apply BitVec.eq_of_getLsbD_eq
  intro i hi
  interval_cases i
  all_goals
    simp only [opcodeOf, iWord, BitVec.getLsbD_append, BitVec.getLsbD_extractLsb']
    simp

theorem funct3Of_iWord (imm : BitVec 12) (rs1 : RegNum) (f3 : BitVec 3) (rd : RegNum) (op : BitVec 7) :
    funct3Of (iWord imm rs1 f3 rd op) = f3 := by
  apply BitVec.eq_of_getLsbD_eq
  intro i hi
  interval_cases i
  all_goals
    simp only [funct3Of, iWord, BitVec.getLsbD_append, BitVec.getLsbD_extractLsb']
    simp

/-- A CSR word that is neither CSRRS from x0 nor CSRRW to x0 is no instruction of TinyRV2 (D3). -/
theorem decodeWord_tinyRV2_system {w : Word} (hop : opcodeOf w = 0x73#7) (hrs1 : ¬(funct3Of w = 2#3 ∧ rs1Of w = 0#5))
    (hrd : ¬(funct3Of w = 1#3 ∧ rdOf w = 0#5)) : decodeWord .tinyRV2 w = .error (.notAnInstruction w) := by
  refine (wordsOutsideTheTableAreExactlyTheseRejected w).mpr ?_
  iterate 8 apply Or.inr
  exact ⟨hop, hrs1, hrd⟩

/-- TinyRV1 has no row with the opcode of the CSR instructions. -/
theorem decodeWord_tinyRV1_system {w : Word} (hop : opcodeOf w = 0x73#7) :
    decodeWord .tinyRV1 w = .error (.notAnInstruction w) := by
  have hrows : ∀ r ∈ opcodeTable, r.inRV1 = true →
      r.mask.extractLsb' 0 7 = BitVec.allOnes 7 ∧ r.pattern.extractLsb' 0 7 ≠ 0x73#7 := by decide
  refine decodeWord_error_iff.mpr fun r hr hv hm => ?_
  obtain ⟨hcover, hne⟩ := hrows r hr hv
  exact hne ((extractLsb'_of_and_eq hm hcover).symm.trans hop)

section
variable (csr : CsrNum) (rd rs1 : RegNum)

theorem decodeWord_csrrsWord : decodeWord .tinyRV2 (csrrsWord rd csr rs1) =
    if rs1 = 0#5 then .ok (.csrr rd csr) else .error (.notAnInstruction (csrrsWord rd csr rs1)) := by
  split_ifs with h
  · subst h
    exact decodeWord_encode (i := .csrr rd csr) rfl rfl
  · apply decodeWord_tinyRV2_system
    · exact opcodeOf_iWord _ _ _ _ _
    · rw [csrrsWord, rs1Of_iWord]
      exact fun hfields => h hfields.2
    · rw [csrrsWord, funct3Of_iWord]
      exact fun hfields => absurd hfields.1 (by decide)

theorem decodeWord_csrrwWord : decodeWord .tinyRV2 (csrrwWord rd csr rs1) =
    if rd = 0#5 then .ok (.csrw csr rs1) else .error (.notAnInstruction (csrrwWord rd csr rs1)) := by
  split_ifs with h
  · subst h
    exact decodeWord_encode (i := .csrw csr rs1) rfl rfl
  · apply decodeWord_tinyRV2_system
    · exact opcodeOf_iWord _ _ _ _ _
    · rw [csrrwWord, funct3Of_iWord]
      exact fun hfields => absurd hfields.1 (by decide)
    · rw [csrrwWord, rdOf_iWord]
      exact fun hfields => h hfields.2

end

/-- Settles O5: with x0 the two words are CSRR's and CSRW's own; the others are outside the table. -/
theorem generalCsrWordsAreInstructionsOnlyWithX0 : Obligations.GeneralCsrWordsAreInstructionsOnlyWithX0 :=
  fun csr rd rs1 => ⟨decodeWord_csrrsWord csr rd rs1, decodeWord_csrrwWord csr rd rs1,
    decodeWord_tinyRV1_system (opcodeOf_iWord _ _ _ _ _), decodeWord_tinyRV1_system (opcodeOf_iWord _ _ _ _ _)⟩

end Sys2Proof.Machine
end

section
/-! PROOFS. Registers and results (10_state.md section 2, 42_reg_reg_arithmetic.md, 43_reg_imm_arithmetic.md): x0 and
the 31 others, the comparisons' 1 or 0, the product, and the constant that LUI and ADDI build. -/

namespace Sys2Proof.Machine

/-! Registers. -/

/-- Settles O12: what a register reads as after a write, for x0 and for the others. -/
theorem x0IsZeroAndTheOthersAreStorage : Obligations.X0IsZeroAndTheOthersAreStorage := by
  intro s v
  refine ⟨s.readReg_zero, s.writeReg_zero v, fun r hr => ⟨?_, fun q hq => s.readReg_writeReg_ne v hq⟩⟩
  rw [State.readReg_writeReg_self, if_neg hr]

/-! Comparisons. -/

section Results
variable (rd rs1 rs2 : RegNum) (imm : BitVec 12) (s : State)

theorem exec_slt : exec (.slt rd rs1 rs2) s =
    s.writeBack rd (boolWord (ltSigned (s.readReg rs1) (s.readReg rs2))) := rfl

theorem exec_sltu : exec (.sltu rd rs1 rs2) s =
    s.writeBack rd (boolWord (ltUnsigned (s.readReg rs1) (s.readReg rs2))) := rfl

theorem exec_slti : exec (.slti rd rs1 imm) s =
    s.writeBack rd (boolWord (ltSigned (s.readReg rs1) (immValue imm))) := rfl

theorem exec_sltiu : exec (.sltiu rd rs1 imm) s =
    s.writeBack rd (boolWord (ltUnsigned (s.readReg rs1) (immValue imm))) := rfl

theorem exec_mul : exec (.mul rd rs1 rs2) s = s.writeBack rd (s.readReg rs1 * s.readReg rs2) := rfl

end Results

/-- R95: 1 for a condition that holds, 0 for one that does not. -/
theorem boolWord_decide (p : Prop) [Decidable p] : boolWord (decide p) = if p then 1#32 else 0#32 := by
  simp only [boolWord, decide_eq_true_eq]

theorem boolWord_ltSigned (a b : Word) : boolWord (ltSigned a b) = if a.toInt < b.toInt then 1#32 else 0#32 :=
  boolWord_decide _

theorem boolWord_ltUnsigned (a b : Word) : boolWord (ltUnsigned a b) = if a.toNat < b.toNat then 1#32 else 0#32 :=
  boolWord_decide _

/-- Settles O15: the words by the round trip, the results by the comparisons of the integers. -/
theorem setLessThanWritesOneOrZero : Obligations.SetLessThanWritesOneOrZero := by
  intro s rd rs1 rs2
  refine ⟨decodeWord_encode (i := .slt rd rs1 rs2) rfl rfl, decodeWord_encode (i := .sltu rd rs1 rs2) rfl rfl, ?_, ?_⟩
  · rw [← boolWord_ltSigned]
    exact exec_completes_of_writeBack (exec_slt rd rs1 rs2 s)
  · rw [← boolWord_ltUnsigned]
    exact exec_completes_of_writeBack (exec_sltu rd rs1 rs2 s)

/-- R115: the sign-extended immediate read as unsigned is 2^32 more where the immediate is negative. -/
theorem immValue_toNat (imm : BitVec 12) :
    ((immValue imm).toNat : Int) = if imm.toInt < 0 then imm.toInt + 2 ^ 32 else imm.toInt := by
  rw [← immValue_toInt, BitVec.toInt_eq_toNat_cond]
  split_ifs <;> omega

/-- Settles O20: the words by the round trip; sign extension keeps the immediate's integer, and its unsigned reading is
the integer modulo 2^32. -/
theorem setLessThanImmediateWritesOneOrZero : Obligations.SetLessThanImmediateWritesOneOrZero := by
  intro s rd rs1 imm
  refine ⟨decodeWord_encode (i := .slti rd rs1 imm) rfl rfl, decodeWord_encode (i := .sltiu rd rs1 imm) rfl rfl, ?_, ?_⟩
  · rw [← immValue_toInt, ← boolWord_ltSigned]
    exact exec_completes_of_writeBack (exec_slti rd rs1 imm s)
  · simp only [← immValue_toNat, Nat.cast_lt, ← boolWord_ltUnsigned]
    exact exec_completes_of_writeBack (exec_sltiu rd rs1 imm s)

/-! The product. -/

/-- MUL is an instruction of both versions (R1, R2). -/
theorem mul_inVersion (v : IsaVersion) (rd rs1 rs2 : RegNum) : (Instr.mul rd rs1 rs2).inVersion v = true := by
  cases v <;> rfl

/-- The low half of a product is the same for the signed and the unsigned reading of its factors. -/
theorem mul_eq_ofInt {n : Nat} (x y : BitVec n) : x * y = BitVec.ofInt n (x.toInt * y.toInt) := by
  rw [BitVec.ofInt_mul, BitVec.ofInt_toInt, BitVec.ofInt_toInt]

/-- Settles O17: the word by the round trip, the low half by the model's product, in both readings. -/
theorem mulKeepsTheLowHalfOfTheProduct : Obligations.MulKeepsTheLowHalfOfTheProduct := by
  intro s rd rs1 rs2
  exact ⟨fun v => decodeWord_encode (i := .mul rd rs1 rs2) rfl (mul_inVersion v rd rs1 rs2),
    exec_completes_of_writeBack_of_property (exec_mul rd rs1 rs2 s) ⟨BitVec.toNat_mul _ _, mul_eq_ofInt _ _⟩⟩

/-! A constant in two instructions. -/

theorem SameButRegs.trans {s t u : State} (hst : SameButRegs s t) (htu : SameButRegs t u) : SameButRegs s u where
  setting := ⟨htu.setting.version.trans hst.setting.version, htu.setting.smc.trans hst.setting.smc,
    htu.setting.coreId.trans hst.setting.coreId, htu.setting.numCores.trans hst.setting.numCores,
    htu.setting.manager.trans hst.setting.manager⟩
  fifos := ⟨htu.fifos.m2p.trans hst.fifos.m2p, htu.fifos.p2m.trans hst.fifos.p2m,
    htu.fifos.p2mReady.trans hst.fifos.p2mReady, htu.fifos.sent.trans hst.fifos.sent⟩
  statsEn := htu.statsEn.trans hst.statsEn
  memory a := (htu.memory a).trans (hst.memory a)

/-- Of two writes to one register the later stands. -/
theorem WroteReg.trans {s t u : State} {rd : RegNum} {v w p q : Word} (hst : WroteReg s t rd v p)
    (htu : WroteReg t u rd w q) : WroteReg s u rd w q where
  result := htu.result
  others r hr := (htu.others r hr).trans (hst.others r hr)
  pc := htu.pc
  rest := hst.rest.trans htu.rest

/-- What is left of a constant when its signed low twelve bits are taken off is a multiple of 2^12. -/
theorem sub_low12_toNat_mod (c : Word) : (c - immValue (c.extractLsb' 0 12)).toNat % 4096 = 0 := by
  have hlow : (c.extractLsb' 0 12).toNat = c.toNat % 4096 := by simp [BitVec.extractLsb'_toNat]
  have hval := immValue_toNat (c.extractLsb' 0 12)
  rw [BitVec.toInt_eq_toNat_cond, hlow] at hval
  rw [BitVec.toNat_sub]
  split_ifs at hval <;> omega

/-- A multiple of 2^12 is the upper immediate of its upper twenty bits (R58). -/
theorem upperValue_extractLsb' {x : Word} (h : x.toNat % 4096 = 0) : upperValue (x.extractLsb' 12 20) = x := by
  apply BitVec.eq_of_toNat_eq
  rw [upperValue_toNat, BitVec.extractLsb'_toNat, Nat.shiftRight_eq_div_pow]
  omega

/-- Settles O23: the upper part is a multiple of 2^12, so LUI writes it whole, and ADDI adds what was taken off. -/
theorem luiThenAddiBuildsEveryConstant : Obligations.LuiThenAddiBuildsEveryConstant := by
  intro s rd c hrd
  have hupper := upperValue_extractLsb' (sub_low12_toNat_mod c)
  obtain ⟨t, hlui, hwrote⟩ := exec_completes_of_writeBack (exec_lui rd
    ((c - immValue (c.extractLsb' 0 12)).extractLsb' 12 20) s)
  obtain ⟨u, haddi, hwrote'⟩ := exec_completes_of_writeBack (exec_addi rd rd (c.extractLsb' 0 12) t)
  refine ⟨t, u, hlui, haddi, ?_⟩
  have hread : t.readReg rd = c - immValue (c.extractLsb' 0 12) := by rw [hwrote.result, if_neg hrd, hupper]
  rw [hread, BitVec.sub_add_cancel, hwrote.pc, BitVec.add_assoc] at hwrote'
  exact hwrote.trans hwrote'

end Sys2Proof.Machine
end

section
/-! PROOFS. Memory (44_memory_instructions.md, 20_memory.md, 10_state.md section 7): where LW and SW stop, what SW stores
and later accesses see of it, and the canonical form as a faithful picture of the 1 MB. -/

namespace Sys2Proof.Machine

/-! The checks of a data access (R173). -/

section Checks
variable {a : Word}

theorem aligned_eq_false (h : a.toNat % 4 ≠ 0) : aligned a = false := by
  rw [← Bool.not_eq_true, aligned_iff]
  exact h

theorem inRange_eq_false (h : 0x000fffff < a.toNat) : inRange a = false := by
  rw [← Bool.not_eq_true, inRange_iff]
  exact Nat.not_le.mpr h

theorem checkData_of_misaligned (h : a.toNat % 4 ≠ 0) : checkData a = .error (.misalignedData a) := by
  simp [checkData, aligned_eq_false h]

theorem checkData_of_outOfRange (h : a.toNat % 4 = 0) (hout : 0x000fffff < a.toNat) :
    checkData a = .error (.addressOutOfRange a) := by
  simp [checkData, (aligned_iff a).mpr h, inRange_eq_false hout]

end Checks

section Stops
variable {s : State} {rs1 : RegNum} {imm : BitVec 12} {f : Fault}

/-- LW passes on the fault of its check (R130). -/
theorem exec_lw_of_checkData (rd : RegNum) (h : checkData (s.effectiveAddress rs1 imm) = .error f) :
    exec (.lw rd rs1 imm) s = .fault f := by
  simp only [exec, execLw, State.loadWord, h]

/-- SW passes on the fault of its check (R131). -/
theorem exec_sw_of_checkData (rs2 : RegNum) (h : checkData (s.effectiveAddress rs1 imm) = .error f) :
    exec (.sw rs2 rs1 imm) s = .fault f := by
  simp only [exec, execSw, State.storeWord, h]

/-- At an aligned address inside memory SW is refused where the policy refuses the store (R47). -/
theorem exec_sw_of_refusesStore (rs2 : RegNum) (ha : aligned (s.effectiveAddress rs1 imm) = true)
    (hr : inRange (s.effectiveAddress rs1 imm) = true) (hp : refusesStore s.smc (s.effectiveAddress rs1 imm) = true) :
    exec (.sw rs2 rs1 imm) s = .refused (.storeToText (s.effectiveAddress rs1 imm)) := by
  simp [exec, execSw, State.storeWord, checkData, ha, hr, hp]

end Stops

/-- Settles O27: the two checks, in their order. -/
theorem loadStopsOnMisalignedThenOutOfRange : Obligations.LoadStopsOnMisalignedThenOutOfRange :=
  fun _ rd _ _ => ⟨fun hmis => exec_lw_of_checkData rd (checkData_of_misaligned hmis),
    fun hal hout => exec_lw_of_checkData rd (checkData_of_outOfRange hal hout)⟩

/-- Settles O29: the two checks, in their order, and then the policy. -/
theorem storeStopsOnMisalignedThenOutOfRangeThenText : Obligations.StoreStopsOnMisalignedThenOutOfRangeThenText := by
  intro s rs2 rs1 imm
  refine ⟨fun hmis => exec_sw_of_checkData rs2 (checkData_of_misaligned hmis),
    fun hal hout => exec_sw_of_checkData rs2 (checkData_of_outOfRange hal hout),
    fun text r hal hin hsmc hr hlo hhi => ?_⟩
  exact exec_sw_of_refusesStore rs2 ((aligned_iff _).mpr hal) ((inRange_iff _).mpr hin)
    ((refusesStore_iff _ _).mpr ⟨text, hsmc, r, hr, hlo, hhi⟩)

/-! Stores. -/

/-- The state after an SW that completes: a word of memory and the pc (R131). -/
def State.stored (s : State) (rs2 rs1 : RegNum) (imm : BitVec 12) : State :=
  ({ s with mem := s.mem.writeWord (s.effectiveAddress rs1 imm).toNat (s.readReg rs2) } : State).setPc (s.pc + 4#32)

section Stores
variable {s t : State} {rs2 rs1 : RegNum} {imm : BitVec 12}

/-- SW completes exactly at the admitted addresses that the policy does not refuse. -/
theorem exec_sw_next_iff : exec (.sw rs2 rs1 imm) s = .next t ↔
    aligned (s.effectiveAddress rs1 imm) = true ∧ inRange (s.effectiveAddress rs1 imm) = true ∧
      refusesStore s.smc (s.effectiveAddress rs1 imm) = false ∧ t = s.stored rs2 rs1 imm := by
  constructor
  · intro h
    simp only [exec, execSw] at h
    split at h
    · next s' hs =>
      obtain ⟨ha, hr, hp, rfl⟩ := State.storeWord_next hs
      cases h
      exact ⟨ha, hr, hp, rfl⟩
    · cases h
    · cases h
  · rintro ⟨ha, hr, hp, rfl⟩
    simp only [exec, execSw, State.storeWord_of_admitted _ ha hr hp]
    rfl

theorem State.stored_mem : (s.stored rs2 rs1 imm).mem =
    s.mem.writeWord (s.effectiveAddress rs1 imm).toNat (s.readReg rs2) := rfl

theorem State.stored_readByte_inside {k : Nat} (hk : k < 4) :
    (s.stored rs2 rs1 imm).mem.readByte ((s.effectiveAddress rs1 imm).toNat + k) =
      (s.readReg rs2).extractLsb' (8 * k) 8 := by
  rw [State.stored_mem, Memory.readByte_writeWord, if_pos (by omega), Nat.add_sub_cancel_left, byteOfWord]

theorem State.stored_readByte_outside {a : Nat} (h : a < (s.effectiveAddress rs1 imm).toNat ∨
      (s.effectiveAddress rs1 imm).toNat + 4 ≤ a) :
    (s.stored rs2 rs1 imm).mem.readByte a = s.mem.readByte a := by
  rw [State.stored_mem, Memory.readByte_writeWord, if_neg (by omega)]

end Stores

/-- SW is an instruction of both versions (R1, R2). -/
theorem sw_inVersion (v : IsaVersion) (rs2 rs1 : RegNum) (imm : BitVec 12) :
    (Instr.sw rs2 rs1 imm).inVersion v = true := by
  cases v <;> rfl

/-- Settles O28: the word by the round trip; the policy by what it refuses; the bytes by those of the stored word. -/
theorem storeChangesExactlyItsFourBytes : Obligations.StoreChangesExactlyItsFourBytes := by
  intro s rs2 rs1 imm
  refine ⟨fun v => decodeWord_encode (i := .sw rs2 rs1 imm) rfl (sw_inVersion v rs2 rs1 imm),
    s.effectiveAddress_eq_ofInt rs1 imm, fun hsmc => by rw [hsmc]; rfl, fun text hsmc hout => ?_,
    fun hal hin hp => ⟨s.stored rs2 rs1 imm, ?_, fun k hk => State.stored_readByte_inside hk,
      fun a ha => State.stored_readByte_outside ha, fun _ => rfl, rfl, ⟨rfl, rfl, rfl, rfl, rfl⟩, ⟨rfl, rfl, rfl, rfl⟩,
      rfl⟩⟩
  · rw [← Bool.not_eq_true, refusesStore_iff]
    rintro ⟨text', hsmc', r, hr, hinside⟩
    obtain rfl : text = text' := by rw [hsmc] at hsmc'; injection hsmc'
    exact hout r hr hinside
  · exact exec_sw_next_iff.mpr ⟨(aligned_iff _).mpr hal, (inRange_iff _).mpr hin, hp, rfl⟩

/-- Settles O30: the store's address was admitted, so the load completes, with the word that is read where it was
stored. -/
theorem loadAfterStoreReturnsTheStoredWord : Obligations.LoadAfterStoreReturnsTheStoredWord := by
  intro s t rs2 rs1 rb rd imm imm' hsw haddr
  obtain ⟨ha, hr, -, rfl⟩ := exec_sw_next_iff.mp hsw
  rw [← haddr] at ha hr
  have hlw := exec_lw_of_admitted (rd := rd) ha hr
  rwa [haddr, State.stored_mem, Memory.readWord_writeWord] at hlw

/-- Settles O31: the store's address was admitted, so the fetch answers the word that is read where it was stored. -/
theorem fetchAfterStoreSeesTheStoredWord : Obligations.FetchAfterStoreSeesTheStoredWord := by
  intro s t u rs2 rs1 imm hsw hmem hpc
  obtain ⟨ha, hr, -, rfl⟩ := exec_sw_next_iff.mp hsw
  rw [← hpc] at ha hr
  rw [State.fetch_of_admitted ha hr, hmem, hpc, State.stored_mem, Memory.readWord_writeWord]

/-! The canonical form. -/

/-- The memory that holds the first `n` bytes of an image. -/
def Memory.ofImage (image : Nat → Byte) : Nat → Memory
  | 0 => []
  | n + 1 => (Memory.ofImage image n).writeByte n (image n)

theorem Memory.ofImage_wf (image : Nat → Byte) {n : Nat} (hn : n ≤ Config.memoryBytes) :
    (Memory.ofImage image n).wf = true := by
  induction n with
  | zero => rfl
  | succ n ih => exact Memory.writeByte_wf _ (ih (by omega)) (by omega)

theorem Memory.readByte_ofImage (image : Nat → Byte) {n a : Nat} (ha : a < n) :
    (Memory.ofImage image n).readByte a = image a := by
  induction n with
  | zero => omega
  | succ n ih =>
    rw [Memory.ofImage, Memory.readByte_writeByte]
    split_ifs with h
    · rw [h]
    · exact ih (by omega)

/-- Settles O32: the image is written byte by byte. -/
theorem everyMemoryImageIsACanonicalMemory : Obligations.EveryMemoryImageIsACanonicalMemory :=
  fun image => ⟨Memory.ofImage image Config.memoryBytes, Memory.ofImage_wf image (Nat.le_refl _),
    fun _ ha => Memory.readByte_ofImage image ha⟩

/-- Below its first address a canonical memory lists nothing. -/
theorem Memory.readByte_of_lt {lo a : Nat} {m : Memory} (h : Memory.risesFrom lo m = true) (ha : a < lo) :
    m.readByte a = Config.unlistedByte := by
  induction m generalizing lo with
  | nil => rfl
  | cons c rest ih =>
    obtain ⟨k, b⟩ := c
    obtain ⟨hlo, -, -, hrest⟩ := Memory.risesFrom_cons.mp h
    rw [Memory.readByte, if_neg (by omega), ih hrest (by omega)]

theorem Memory.readByte_cons_self (k : Nat) (b : Byte) (rest : Memory) :
    Memory.readByte ((k, b) :: rest) k = b := by
  rw [Memory.readByte, if_pos rfl]

theorem Memory.readByte_cons_of_ne {k a : Nat} (b : Byte) (rest : Memory) (h : k ≠ a) :
    Memory.readByte ((k, b) :: rest) a = rest.readByte a := by
  rw [Memory.readByte, if_neg h]

/-- Memories that read alike inside the address space. -/
def Memory.ReadAlike (m n : Memory) : Prop := ∀ a, a < Config.memoryBytes → m.readByte a = n.readByte a

/-- A memory that reads like one whose first listed address is `k` lists something at or below `k`. -/
theorem Memory.not_readAlike_of_lt {lo k : Nat} {b : Byte} {m rest : Memory} (hm : Memory.risesFrom lo m = true)
    (hlt : k < lo) (hk : k < Config.memoryBytes) (hb : b ≠ Config.unlistedByte) :
    ¬Memory.ReadAlike m ((k, b) :: rest) := by
  intro hsame
  have := hsame k hk
  rw [Memory.readByte_of_lt hm hlt, Memory.readByte_cons_self] at this
  exact hb this.symm

/-- The first listed addresses agree, and their bytes, and so on through both lists. -/
theorem Memory.eq_of_readAlike {lo : Nat} {m n : Memory} (hm : Memory.risesFrom lo m = true)
    (hn : Memory.risesFrom lo n = true) (hsame : Memory.ReadAlike m n) : m = n := by
  induction m generalizing lo n with
  | nil =>
    cases n with
    | nil => rfl
    | cons c rest =>
      obtain ⟨k, b⟩ := c
      obtain ⟨-, hk, hb, -⟩ := Memory.risesFrom_cons.mp hn
      exact absurd hsame (Memory.not_readAlike_of_lt (lo := k + 1) rfl (by omega) hk hb)
  | cons c rest ih =>
    obtain ⟨k, b⟩ := c
    obtain ⟨hlo, hk, hb, hrest⟩ := Memory.risesFrom_cons.mp hm
    have hm' : Memory.risesFrom k ((k, b) :: rest) = true := Memory.risesFrom_cons.mpr ⟨Nat.le_refl _, hk, hb, hrest⟩
    have hsymm : Memory.ReadAlike n ((k, b) :: rest) := fun a ha => (hsame a ha).symm
    cases n with
    | nil => exact absurd hsymm (Memory.not_readAlike_of_lt (lo := k + 1) rfl (by omega) hk hb)
    | cons c' rest' =>
      obtain ⟨k', b'⟩ := c'
      obtain ⟨hlo', hk', hb', hrest'⟩ := Memory.risesFrom_cons.mp hn
      have hn' : Memory.risesFrom k' ((k', b') :: rest') = true :=
        Memory.risesFrom_cons.mpr ⟨Nat.le_refl _, hk', hb', hrest'⟩
      obtain hlt | rfl | hgt := Nat.lt_trichotomy k k'
      · exact absurd hsymm (Memory.not_readAlike_of_lt hn' hlt hk hb)
      · obtain rfl : b = b' := by
          have := hsame k hk
          rwa [Memory.readByte_cons_self, Memory.readByte_cons_self] at this
        rw [ih hrest hrest' fun a ha => ?_]
        by_cases hak : k = a
        · rw [Memory.readByte_of_lt hrest (by omega), Memory.readByte_of_lt hrest' (by omega)]
        · have := hsame a ha
          rwa [Memory.readByte_cons_of_ne b _ hak, Memory.readByte_cons_of_ne b _ hak] at this
      · exact absurd hsame (Memory.not_readAlike_of_lt hm' hgt hk' hb')

/-- Settles O33: two canonical lists that read alike have the same first entry, and so on. -/
theorem canonicalMemoriesThatReadAlikeAreEqual : Obligations.CanonicalMemoriesThatReadAlikeAreEqual :=
  fun _ _ hm hn hsame => Memory.eq_of_readAlike hm hn hsame

end Sys2Proof.Machine
end

section
/-! PROOFS. JR, JALR and the order branches (45_jumps.md, 46_branches.md): targets bit by bit, and what each funct3 of
the branch opcode decodes to. -/

namespace Sys2Proof.Machine

/-! Jumps through a register. -/

/-- R141, D25: JR goes to the register, with bit 0 cleared in TinyRV2 only. -/
theorem exec_jr_target (s : State) (rs1 : RegNum) :
    ∃ p, exec (.jr rs1) s = .next (s.setPc p) ∧
      ∀ k, p.getLsbD k = if k = 0 ∧ s.version = .tinyRV2 then false else (s.readReg rs1).getLsbD k := by
  cases hv : s.version with
  | tinyRV1 => exact ⟨_, exec_jr_tinyRV1 rs1 hv, fun k => by simp⟩
  | tinyRV2 =>
    refine ⟨_, exec_jr_tinyRV2 rs1 hv, fun k => ?_⟩
    rw [clearBit0_getLsbD]
    by_cases hk : k = 0 <;> simp [hk]

/-- Settles O35: the word by the round trip; the target with its bit 0 as the version has it. -/
theorem jrJumpsToTheRegister : Obligations.JrJumpsToTheRegister := by
  intro s rs1
  obtain ⟨p, hexec, hbits⟩ := exec_jr_target s rs1
  exact ⟨decodeWord_encode (i := .jr rs1) rfl rfl, s.setPc p, p, hexec, onlyPc_setPc s p, hbits⟩

/-- Settles O36: the word by the round trip; link and target by `linkTo`, the sum read as a number and its bit 0
cleared. -/
theorem jalrLinksAndJumpsThroughTheOldRegister : Obligations.JalrLinksAndJumpsThroughTheOldRegister := by
  intro s rd rs1 imm
  obtain ⟨t, hexec, hwrote⟩ := exec_completes_of_linkTo (exec_jalr rd rs1 imm s)
  refine ⟨decodeWord_encode (i := .jalr rd rs1 imm) rfl rfl, t, _, hexec, s.link_eq_ofNat_mod ▸ hwrote, fun k => ?_⟩
  rw [clearBit0_getLsbD, add_eq_ofInt, immValue_toInt]
  by_cases hk : k = 0 <;> simp [hk]

/-! The branch opcode. -/

theorem opcodeOf_bWord (off : BitVec 13) (rs2 rs1 : RegNum) (f3 : BitVec 3) (op : BitVec 7) :
    opcodeOf (bWord off rs2 rs1 f3 op) = op := by
  apply BitVec.eq_of_getLsbD_eq
  intro i hi
  interval_cases i
  all_goals
    simp only [opcodeOf, bWord, BitVec.getLsbD_append, BitVec.getLsbD_extractLsb']
    simp

theorem funct3Of_bWord (off : BitVec 13) (rs2 rs1 : RegNum) (f3 : BitVec 3) (op : BitVec 7) :
    funct3Of (bWord off rs2 rs1 f3 op) = f3 := by
  apply BitVec.eq_of_getLsbD_eq
  intro i hi
  interval_cases i
  all_goals
    simp only [funct3Of, bWord, BitVec.getLsbD_append, BitVec.getLsbD_extractLsb']
    simp

/-- The two values of funct3 that no branch has are rejected (D2). -/
theorem decodeWord_branch_leftOver {w : Word} (hop : opcodeOf w = 0x63#7) (hf3 : funct3Of w = 2#3 ∨ funct3Of w = 3#3) :
    decodeWord .tinyRV2 w = .error (.notAnInstruction w) := by
  refine (wordsOutsideTheTableAreExactlyTheseRejected w).mpr ?_
  iterate 7 apply Or.inr
  exact .inl ⟨hop, hf3⟩

section Order
variable (rs1 rs2 : RegNum) (off : BitVec 13) (s : State)

/-- What each funct3 of the branch opcode decodes to. -/
theorem decodeWord_bWord (heven : off.getLsbD 0 = false) (f3 : BitVec 3) :
    decodeWord .tinyRV2 (bWord off rs2 rs1 f3 0b1100011#7) =
      if f3 = 0b000#3 then .ok (.beq rs1 rs2 off) else if f3 = 0b001#3 then .ok (.bne rs1 rs2 off)
      else if f3 = 0b100#3 then .ok (.blt rs1 rs2 off) else if f3 = 0b101#3 then .ok (.bge rs1 rs2 off)
      else if f3 = 0b110#3 then .ok (.bltu rs1 rs2 off) else if f3 = 0b111#3 then .ok (.bgeu rs1 rs2 off)
      else .error (.notAnInstruction (bWord off rs2 rs1 f3 0b1100011#7)) := by
  have hwf : evenOffset off = true := (evenOffset_iff off).mpr heven
  have hop := opcodeOf_bWord off rs2 rs1 f3 0b1100011#7
  have hf3 := funct3Of_bWord off rs2 rs1 f3 0b1100011#7
  obtain rfl | rfl | rfl | rfl | rfl | rfl | rfl | rfl := funct3_cases f3
  · exact decodeWord_encode (i := .beq rs1 rs2 off) hwf rfl
  · exact decodeWord_encode (i := .bne rs1 rs2 off) hwf rfl
  · exact decodeWord_branch_leftOver hop (.inl hf3)
  · exact decodeWord_branch_leftOver hop (.inr hf3)
  · exact decodeWord_encode (i := .blt rs1 rs2 off) hwf rfl
  · exact decodeWord_encode (i := .bge rs1 rs2 off) hwf rfl
  · exact decodeWord_encode (i := .bltu rs1 rs2 off) hwf rfl
  · exact decodeWord_encode (i := .bgeu rs1 rs2 off) hwf rfl

theorem exec_blt : exec (.blt rs1 rs2 off) s =
    s.branchTo (ltSigned (s.readReg rs1) (s.readReg rs2)) (s.relative (branchValue off)) := rfl

theorem exec_bge : exec (.bge rs1 rs2 off) s =
    s.branchTo (geSigned (s.readReg rs1) (s.readReg rs2)) (s.relative (branchValue off)) := rfl

theorem exec_bltu : exec (.bltu rs1 rs2 off) s =
    s.branchTo (ltUnsigned (s.readReg rs1) (s.readReg rs2)) (s.relative (branchValue off)) := rfl

theorem exec_bgeu : exec (.bgeu rs1 rs2 off) s =
    s.branchTo (geUnsigned (s.readReg rs1) (s.readReg rs2)) (s.relative (branchValue off)) := rfl

end Order

/-- Settles O39: the words by funct3; the successor by `branchTo`, whose flag decides the comparison of the integers. -/
theorem orderBranchesChooseBetweenTwoSuccessors : Obligations.OrderBranchesChooseBetweenTwoSuccessors :=
  fun s rs1 rs2 off => ⟨fun heven f3 => decodeWord_bWord rs1 rs2 off heven f3,
    exec_completes_of_branchTo (exec_blt rs1 rs2 off s) decide_eq_true_iff,
    exec_completes_of_branchTo (exec_bge rs1 rs2 off s) decide_eq_true_iff,
    exec_completes_of_branchTo (exec_bltu rs1 rs2 off s) decide_eq_true_iff,
    exec_completes_of_branchTo (exec_bgeu rs1 rs2 off s) decide_eq_true_iff⟩

end Sys2Proof.Machine
end

section
/-! PROOFS. CSRR and CSRW (41_csr_instructions.md, 10_state.md section 5): one equation for each of the five CSRs and one
for every other number; what they read, write, hold at and fault with. -/

namespace Sys2Proof.Machine

theorem csrOfNumber_eq_none {n : CsrNum} (h : n ∉ [0x7c0#12, 0x7c1#12, 0xfc0#12, 0xfc1#12, 0xf14#12]) :
    csrOfNumber n = none := by
  simp only [List.mem_cons, List.not_mem_nil, or_false, not_or] at h
  obtain ⟨hp2m, hstats, hm2p, hcores, hid⟩ := h
  obtain ⟨e, -⟩ | ⟨e, -⟩ | ⟨e, -⟩ | ⟨e, -⟩ | ⟨e, -⟩ | ⟨-, -, -, -, -, hnone⟩ := csrOfNumber_cases n
  · exact absurd e hp2m
  · exact absurd e hm2p
  · exact absurd e hid
  · exact absurd e hcores
  · exact absurd e hstats
  · exact hnone

/-! CSRR. -/

section Read
variable {s : State} (rd : RegNum)

/-- R18: the head word is consumed. -/
theorem exec_csrr_mngr2proc {w : Word} {rest : List Word} (h : s.m2p = w :: rest) :
    exec (.csrr rd 0xfc0#12) s = ({ s with m2p := rest } : State).writeBack rd w := by
  have hread : s.csrRead 0xfc0#12 = .value w { s with m2p := rest } := by
    simp only [State.csrRead, show csrOfNumber 0xfc0#12 = some .mngr2proc from rfl, h]
  simp only [exec, execCsrr, hread]

theorem exec_csrr_mngr2proc_empty (h : s.m2p = []) : exec (.csrr rd 0xfc0#12) s = .next s := by
  simp only [exec, execCsrr, State.csrRead_hold.mpr ⟨rfl, h⟩, State.hold]

theorem exec_csrr_statsEn : exec (.csrr rd 0x7c1#12) s = s.writeBack rd s.statsEn := rfl

theorem exec_csrr_numcores : exec (.csrr rd 0xfc1#12) s = s.writeBack rd s.numCores := rfl

theorem exec_csrr_coreid : exec (.csrr rd 0xf14#12) s = s.writeBack rd s.coreId := rfl

theorem exec_csrr_proc2mngr : exec (.csrr rd 0x7c0#12) s = .fault (.undefinedCsrAccess 0x7c0#12 .read) := rfl

theorem exec_csrr_noCsr {n : CsrNum} (h : csrOfNumber n = none) : exec (.csrr rd n) s = .fault (.illegalCsr n) := by
  simp only [exec, execCsrr, State.csrRead, h]

end Read

/-- Settles O41: the word by the round trip, each CSR by its equation. -/
theorem csrrReadsEachReadableCsr : Obligations.CsrrReadsEachReadableCsr :=
  fun _ rd => ⟨fun csr => decodeWord_encode (i := .csrr rd csr) rfl rfl,
    fun _ _ hm2p => exec_csrr_mngr2proc rd hm2p ▸ State.writeBack_spec _ rd _,
    exec_completes_of_writeBack (exec_csrr_statsEn rd), exec_completes_of_writeBack (exec_csrr_numcores rd),
    exec_completes_of_writeBack (exec_csrr_coreid rd)⟩

/-- Settles O42: proc2mngr by its equation, the rest as numbers that name no CSR. -/
theorem csrrStopsOnProc2mngrAndOnNoCsr : Obligations.CsrrStopsOnProc2mngrAndOnNoCsr :=
  fun _ rd => ⟨exec_csrr_proc2mngr rd, fun _ hcsr => exec_csrr_noCsr rd (csrOfNumber_eq_none hcsr)⟩

/-! CSRW. -/

section Write
variable {s : State} (rs1 : RegNum)

/-- R19: the whole register goes to the tail of the FIFO and of the output. -/
theorem exec_csrw_proc2mngr (h : s.p2mReady = true) : exec (.csrw 0x7c0#12 rs1) s =
    .next (({ s with p2m := s.p2m ++ [s.readReg rs1], sent := s.sent ++ [s.readReg rs1] } : State).setPc
      (s.pc + 4#32)) := by
  simp only [exec, execCsrw, State.csrWrite, show csrOfNumber 0x7c0#12 = some .proc2mngr from rfl, h, if_true,
    State.advance_eq]

theorem exec_csrw_proc2mngr_notReady (h : s.p2mReady = false) : exec (.csrw 0x7c0#12 rs1) s = .next s := by
  simp only [exec, execCsrw, State.csrWrite_hold.mpr ⟨rfl, h⟩, State.hold]

theorem exec_csrw_statsEn : exec (.csrw 0x7c1#12 rs1) s =
    .next (({ s with statsEn := s.readReg rs1 } : State).setPc (s.pc + 4#32)) := rfl

theorem exec_csrw_mngr2proc : exec (.csrw 0xfc0#12 rs1) s = .fault (.undefinedCsrAccess 0xfc0#12 .write) := rfl

theorem exec_csrw_numcores : exec (.csrw 0xfc1#12 rs1) s = .fault (.undefinedCsrAccess 0xfc1#12 .write) := rfl

theorem exec_csrw_coreid : exec (.csrw 0xf14#12 rs1) s = .fault (.undefinedCsrAccess 0xf14#12 .write) := rfl

theorem exec_csrw_noCsr {n : CsrNum} (h : csrOfNumber n = none) : exec (.csrw n rs1) s = .fault (.illegalCsr n) := by
  simp only [exec, execCsrw, State.csrWrite, h]

end Write

/-- Settles O43: the word by the round trip, the two CSRs by their equations. -/
theorem csrwWritesEachWritableCsr : Obligations.CsrwWritesEachWritableCsr :=
  fun _ rs1 => ⟨fun csr => decodeWord_encode (i := .csrw csr rs1) rfl rfl,
    fun hready => ⟨_, exec_csrw_proc2mngr rs1 hready, onlyPc_setPc _ _⟩,
    ⟨_, exec_csrw_statsEn rs1, onlyPc_setPc _ _⟩⟩

/-- Settles O44: the read-only CSRs by their equations, the rest as numbers that name no CSR. -/
theorem csrwStopsOnReadOnlyAndOnNoCsr : Obligations.CsrwStopsOnReadOnlyAndOnNoCsr :=
  fun _ rs1 => ⟨exec_csrw_mngr2proc rs1, exec_csrw_numcores rs1, exec_csrw_coreid rs1,
    fun _ hcsr => exec_csrw_noCsr rs1 (csrOfNumber_eq_none hcsr)⟩

/-- Settles O45: the two holds. -/
theorem heldCsrAccessChangesNothing : Obligations.HeldCsrAccessChangesNothing :=
  fun _ => ⟨fun hempty rd => exec_csrr_mngr2proc_empty rd hempty,
    fun hnot rs1 => exec_csrw_proc2mngr_notReady rs1 hnot⟩

end Sys2Proof.Machine
end

section
/-! PROOFS. The step (00_scope.md R3, 20_memory.md section 2, 60_exceptions.md section 3), the manager's turn, and the
state after reset. -/

namespace Sys2Proof.Machine

/-! Fetch, decode, execute. -/

theorem step_of_fetch_error {s : State} {f : Fault} (h : s.fetch = .error f) : step s = .fault f := by
  simp only [step, h]

theorem step_of_rejected {s : State} {w : Word} {e : DecodeReject} (hw : s.fetch = .ok w)
    (he : decodeWord s.version w = .error e) : step s = .fault (.illegalInstruction w s.pc) := by
  simp only [step, hw, he]

theorem fetch_of_misaligned {s : State} (h : s.pc.toNat % 4 ≠ 0) : s.fetch = .error (.misalignedFetch s.pc) := by
  simp [State.fetch, checkFetch, aligned_eq_false h]

theorem fetch_of_outOfRange {s : State} (h : s.pc.toNat % 4 = 0) (hout : 0x000fffff < s.pc.toNat) :
    s.fetch = .error (.addressOutOfRange s.pc) := by
  simp [State.fetch, checkFetch, (aligned_iff _).mpr h, inRange_eq_false hout]

theorem fetch_of_inside {s : State} (h : s.pc.toNat % 4 = 0) (hin : s.pc.toNat ≤ 0x000fffff) :
    s.fetch = .ok (s.mem.readWord s.pc.toNat) :=
  State.fetch_of_admitted ((aligned_iff _).mpr h) ((inRange_iff _).mpr hin)

/-- Settles O9: the fetched word is made of the four bytes, and what it decodes to is executed. -/
theorem stepRunsTheDecodedInstruction : Obligations.StepRunsTheDecodedInstruction := by
  rintro s b0 b1 b2 b3 i hal hin rfl rfl rfl rfl hdecode
  rw [step_of_decoded (fetch_of_inside hal hin) hdecode]
  cases exec i s <;> rfl

/-- Settles O10: the two checks of the fetch in their order, and then the decoder. -/
theorem fetchChecksAlignmentThenRangeThenTheWord : Obligations.FetchChecksAlignmentThenRangeThenTheWord :=
  fun _ => ⟨fun hmis => step_of_fetch_error (fetch_of_misaligned hmis),
    fun hal hout => step_of_fetch_error (fetch_of_outOfRange hal hout),
    fun hal hin hreject => step_of_rejected (fetch_of_inside hal hin) hreject⟩

/-! The manager's turn. -/

/-- Settles O11: the turn's fields, one by one. -/
theorem managerTouchesOnlyItsFifos : Obligations.ManagerTouchesOnlyItsFifos := by
  intro s
  refine ⟨s.managerTurn_readReg, s.managerTurn_pc, s.managerTurn_statsEn, fun a => by rw [s.managerTurn_mem],
    s.managerTurn_sent, s.managerTurn_version, s.managerTurn_smc, s.managerTurn_coreId, s.managerTurn_numCores,
    s.managerTurn_nil, fun t rest hturns => ?_⟩
  rw [s.managerTurn_cons hturns]
  exact ⟨rfl, rfl, rfl, rfl⟩

/-! Reset. -/

/-- R25, R202, D20, D26: reset is a launch state. -/
theorem launch_reset : Launch State.reset := ⟨rfl, rfl, rfl, reset_memory_wf, by decide⟩

theorem inv_reset : Inv State.reset := ⟨reset_memory_wf, List.suffix_refl _, by decide, fun _ => by decide⟩

/-- Settles O53: the fields of the reset state. -/
theorem resetStateMeetsTheInvariant : Obligations.ResetStateMeetsTheInvariant :=
  ⟨inv_reset, launch_reset, State.readReg_zero _, rfl, rfl⟩

/-- Settles O8: the reset vector is an aligned address inside memory, so the fetch answers the word there. -/
theorem firstInstructionIsTheWordAtTheResetVector : Obligations.FirstInstructionIsTheWordAtTheResetVector := by
  refine ⟨launch_reset, fun s hlaunch => ⟨hlaunch.pc, ?_⟩⟩
  have hpc : s.pc.toNat = 0x200 := congrArg BitVec.toNat hlaunch.pc
  rw [fetch_of_inside (by omega) (by omega), hpc]
  rfl

end Sys2Proof.Machine
end

section
/-! PROOFS. The whole machine: what an instruction may change (from `exec_effect`), where it may stop, and what follows
for holds and runs (60_exceptions.md sections 1 and 8, 00_scope.md R4). -/

namespace Sys2Proof.Machine

/-! What an instruction may change. -/

section Writers
variable {i : Instr} {s t : State}

theorem Effect.sameSetting (h : Effect i s t) : SameSetting s t := by
  cases h
  all_goals exact ⟨by simp, by simp, by simp, by simp, by simp⟩

theorem Effect.p2mReady_eq (h : Effect i s t) : t.p2mReady = s.p2mReady := by
  cases h
  all_goals simp

theorem Effect.mem_eq (h : Effect i s t) (hi : ∀ rs2 rs1 imm, i ≠ .sw rs2 rs1 imm) : t.mem = s.mem := by
  cases h with
  | stored rs2 rs1 imm e => exact absurd e (hi rs2 rs1 imm)
  | _ => simp

theorem Effect.statsEn_eq (h : Effect i s t) (hi : ∀ rs1, i ≠ .csrw 0x7c1#12 rs1) : t.statsEn = s.statsEn := by
  cases h with
  | wroteStats rs1 e => exact absurd e (hi rs1)
  | _ => simp

theorem Effect.m2p_eq (h : Effect i s t) (hi : ∀ rd, i ≠ .csrr rd 0xfc0#12) : t.m2p = s.m2p := by
  cases h with
  | dequeued rd v rest e => exact absurd e (hi rd)
  | _ => simp

theorem Effect.p2m_sent_eq (h : Effect i s t) (hi : ∀ rs1, i ≠ .csrw 0x7c0#12 rs1) :
    t.p2m = s.p2m ∧ t.sent = s.sent := by
  cases h with
  | enqueued rs1 e => exact absurd e (hi rs1)
  | _ => exact ⟨by simp, by simp⟩

/-- R19: the output grows at its tail, and the FIFO with it. -/
theorem Effect.p2m_sent_append (h : Effect i s t) : ∃ ws, t.p2m = s.p2m ++ ws ∧ t.sent = s.sent ++ ws := by
  cases h with
  | enqueued rs1 => exact ⟨[s.readReg rs1], rfl, rfl⟩
  | _ => exact ⟨[], by simp, by simp⟩

end Writers

/-- Settles O50: the effects, one by one. -/
theorem eachKindOfStateHasOneWriter : Obligations.EachKindOfStateHasOneWriter := by
  intro i s t h
  have heffect := exec_effect h
  exact ⟨heffect.sameSetting, heffect.p2mReady_eq, fun hi a => by rw [heffect.mem_eq hi], heffect.statsEn_eq,
    heffect.m2p_eq, heffect.p2m_sent_eq⟩

/-! Holds (R184). -/

/-- An instruction that is held answers the same state. -/
theorem exec_of_isHeld {i : Instr} {s : State} (h : isHeld i s = true) : exec i s = .next s := by
  cases i with
  | csrr rd n =>
    simp only [isHeld] at h
    split at h
    · next hhold => simp only [exec, execCsrr, hhold, State.hold]
    · cases h
  | csrw n rs1 =>
    simp only [isHeld] at h
    split at h
    · next hhold => simp only [exec, execCsrw, hhold, State.hold]
    · cases h
  | _ => cases h

theorem transfersControl_of_branchOffset {i : Instr} {off : BitVec 13} (h : branchOffset i = some off) :
    transfersControl i = true := by
  cases i with
  | beq | bne | blt | bge | bltu | bgeu => rfl
  | _ => cases h

/-- R4: an instruction that says nothing of the pc and is not held moves it on by 4. -/
theorem Effect.pc_eq {i : Instr} {s t : State} (h : Effect i s t) (hi : transfersControl i = false)
    (hheld : isHeld i s = false) : t.pc = s.pc + 4#32 := by
  cases h with
  | held h => rw [h] at hheld; cases hheld
  | wroteBack | dequeued | enqueued | wroteStats | stored => rfl
  | jal _ _ e | jalr _ _ _ e | jr _ e => subst e; cases hi
  | branched off taken hb => rw [transfersControl_of_branchOffset hb] at hi; cases hi

/-- Settles O49: the effects but for jumps and branches; a held instruction has one outcome. -/
theorem pcAdvancesByFourUnlessSaidOtherwise : Obligations.PcAdvancesByFourUnlessSaidOtherwise := by
  refine fun i s t h hi => ⟨(exec_effect h).pc_eq hi, fun hheld => ?_⟩
  rw [exec_of_isHeld hheld] at h
  cases h
  rfl

/-- A step that leads to the same state leads there for ever. -/
theorem run_of_step_self {s : State} (h : step s = .next s) (k : Nat) : core.run k s = .next s := by
  induction k with
  | zero => rfl
  | succ k ih => rw [run_succ_of_step h, ih]

/-- Settles O46: either hold answers the same state, and with no turn left the step does too. -/
theorem heldForEverWithoutTheManager : Obligations.HeldForEverWithoutTheManager := by
  intro s w i hw hi hturns hheld
  have hexec : exec i s = .next s := by
    obtain ⟨⟨rd, rfl⟩, hempty⟩ | ⟨⟨rs1, rfl⟩, hnot⟩ := hheld
    · exact exec_csrr_mngr2proc_empty rd hempty
    · exact exec_csrw_proc2mngr_notReady rs1 hnot
  have hstep : step s = .next s := by rw [step_of_decoded hw hi, hexec, afterTurn, s.managerTurn_nil hturns]
  exact run_of_step_self hstep

/-- The fetch looks at the pc and at memory only. -/
theorem State.fetch_congr {s t : State} (hpc : t.pc = s.pc) (hmem : t.mem = s.mem) : t.fetch = s.fetch := by
  simp only [State.fetch, hpc, hmem]

/-- The manager adds to mngr2proc at the tail. -/
theorem State.managerTurn_m2p (s : State) : ∃ more, s.managerTurn.m2p = s.m2p ++ more := by
  cases h : s.manager with
  | nil => exact ⟨[], by rw [s.managerTurn_nil h, List.append_nil]⟩
  | cons t rest => exact ⟨t.enqueue, by rw [s.managerTurn_cons h]⟩

/-- Settles O47: the first step is the hold and the turn that enqueues; the second fetches the same word again and
finds the FIFO filled. -/
theorem holdIsLiftedByTheManagersWord : Obligations.HoldIsLiftedByTheManagersWord := by
  intro s w rd v vs n b rest hw hi hempty hturns
  have hm2p : s.managerTurn.m2p = v :: vs := by rw [s.managerTurn_cons hturns, hempty]; rfl
  have hfetch : s.managerTurn.fetch = .ok w := (State.fetch_congr (by simp) (by simp)).trans hw
  have hdecode : decodeWord s.managerTurn.version w = .ok (.csrr rd 0xfc0#12) := by rw [s.managerTurn_version, hi]
  have hstep : step s = .next s.managerTurn := by
    rw [step_of_decoded hw hi, exec_csrr_mngr2proc_empty rd hempty, afterTurn]
  obtain ⟨u, hu, hwrote⟩ := State.writeBack_spec { s.managerTurn with m2p := vs } rd v
  have hstep' : step s.managerTurn = .next u.managerTurn := by
    rw [step_of_decoded hfetch hdecode, exec_csrr_mngr2proc rd hm2p, hu, afterTurn]
  obtain ⟨more, hmore⟩ := u.managerTurn_m2p
  refine ⟨_, _, hstep, s.managerTurn_pc, s.managerTurn_readReg, hm2p, hstep', ?_, ?_, fun r hr => ?_, more, ?_⟩
  · rw [u.managerTurn_pc, hwrote.pc, s.managerTurn_pc]
  · rw [u.managerTurn_readReg, hwrote.result]
  · rw [u.managerTurn_readReg, hwrote.others r hr]
    exact s.managerTurn_readReg r
  · rw [hmore, hwrote.rest.fifos.m2p]

/-! Runs. -/

/-- Settles O48: every step keeps the words sent and adds at the tail. -/
theorem outputOnlyGrowsAlongARun : Obligations.OutputOnlyGrowsAlongARun := by
  intro k s t h
  refine run_induction (P := fun t => s.sent <+: t.sent) (fun t u ht hstep => ?_) k s t (List.prefix_refl _) h
  obtain ⟨w, i, v, -, -, hexec, rfl⟩ := step_next hstep
  obtain ⟨ws, -, hsent⟩ := (exec_effect hexec).p2m_sent_append
  rw [v.managerTurn_sent, hsent]
  exact ht.trans (List.prefix_append _ _)

/-! Stops (R171, R173). -/

/-- Every instruction but CSRR, CSRW, LW and SW completes in every state. -/
theorem exec_completes_or (i : Instr) (s : State) :
    (∃ t, exec i s = .next t) ∨ (∃ rd n, i = .csrr rd n) ∨ (∃ n rs1, i = .csrw n rs1) ∨
      (∃ rd rs1 imm, i = .lw rd rs1 imm) ∨ ∃ rs2 rs1 imm, i = .sw rs2 rs1 imm := by
  cases i with
  | csrr rd n => exact .inr (.inl ⟨rd, n, rfl⟩)
  | csrw n rs1 => exact .inr (.inr (.inl ⟨n, rs1, rfl⟩))
  | lw rd rs1 imm => exact .inr (.inr (.inr (.inl ⟨rd, rs1, imm, rfl⟩)))
  | sw rs2 rs1 imm => exact .inr (.inr (.inr (.inr ⟨rs2, rs1, imm, rfl⟩)))
  | jr rs1 =>
    obtain ⟨p, hexec, -⟩ := exec_jr_target s rs1
    exact .inl ⟨_, hexec⟩
  | _ => exact .inl ⟨_, rfl⟩

theorem State.csrRead_fault {s : State} {n : CsrNum} {f : Fault} (h : s.csrRead n = .fault f) :
    f = .illegalCsr n ∨ f = .undefinedCsrAccess n .read := by
  unfold State.csrRead at h
  split at h
  · cases h; exact .inl rfl
  · cases h; exact .inr rfl
  · split at h <;> cases h
  all_goals cases h

theorem State.csrWrite_fault {s : State} {n : CsrNum} {v : Word} {f : Fault} (h : s.csrWrite n v = .fault f) :
    f = .illegalCsr n ∨ f = .undefinedCsrAccess n .write := by
  unfold State.csrWrite at h
  split at h
  · cases h; exact .inl rfl
  · split at h <;> cases h
  iterate 3
    · cases h; exact .inr rfl
  · cases h

theorem checkData_error {a : Word} {f : Fault} (h : checkData a = .error f) :
    f = .misalignedData a ∨ f = .addressOutOfRange a := by
  obtain ⟨-, e⟩ | ⟨-, -, e⟩ | ⟨-, -, e⟩ := checkData_cases a <;> rw [e] at h
  · cases h; exact .inl rfl
  · cases h; exact .inr rfl
  · cases h

section Stopping
variable {s : State}

/-- CSRR stops with the fault of the read, and is not refused. -/
theorem exec_csrr_stops {rd : RegNum} {n : CsrNum} :
    (∀ f, exec (.csrr rd n) s = .fault f → s.csrRead n = .fault f) ∧ ∀ r, exec (.csrr rd n) s ≠ .refused r := by
  simp only [exec, execCsrr]
  cases s.csrRead n with
  | value v s' => exact ⟨nofun, nofun⟩
  | hold => exact ⟨nofun, nofun⟩
  | fault g => exact ⟨fun _ h => by cases h; rfl, nofun⟩

/-- CSRW stops with the fault of the write, and is not refused. -/
theorem exec_csrw_stops {n : CsrNum} {rs1 : RegNum} :
    (∀ f, exec (.csrw n rs1) s = .fault f → s.csrWrite n (s.readReg rs1) = .fault f) ∧
      ∀ r, exec (.csrw n rs1) s ≠ .refused r := by
  simp only [exec, execCsrw]
  cases s.csrWrite n (s.readReg rs1) with
  | done s' => exact ⟨nofun, nofun⟩
  | hold => exact ⟨nofun, nofun⟩
  | fault g => exact ⟨fun _ h => by cases h; rfl, nofun⟩

/-- LW stops with the fault of its check, and is not refused. -/
theorem exec_lw_stops {rd rs1 : RegNum} {imm : BitVec 12} :
    (∀ f, exec (.lw rd rs1 imm) s = .fault f → checkData (s.effectiveAddress rs1 imm) = .error f) ∧
      ∀ r, exec (.lw rd rs1 imm) s ≠ .refused r := by
  simp only [exec, execLw, State.loadWord]
  cases checkData (s.effectiveAddress rs1 imm) with
  | ok => exact ⟨nofun, nofun⟩
  | error g => exact ⟨fun _ h => by cases h; rfl, nofun⟩

/-- SW stops with the fault of its check, or is refused by the policy. -/
theorem exec_sw_stops {rs2 rs1 : RegNum} {imm : BitVec 12} :
    (∀ f, exec (.sw rs2 rs1 imm) s = .fault f → checkData (s.effectiveAddress rs1 imm) = .error f) ∧
      ∀ r, exec (.sw rs2 rs1 imm) s = .refused r →
        r = .storeToText (s.effectiveAddress rs1 imm) ∧ refusesStore s.smc (s.effectiveAddress rs1 imm) = true := by
  simp only [exec, execSw, State.storeWord]
  cases checkData (s.effectiveAddress rs1 imm) with
  | error g => exact ⟨fun _ h => by cases h; rfl, nofun⟩
  | ok =>
    cases refusesStore s.smc (s.effectiveAddress rs1 imm) with
    | false => exact ⟨nofun, nofun⟩
    | true => exact ⟨nofun, fun _ h => by cases h; exact ⟨rfl, rfl⟩⟩

end Stopping

/-- Settles O51: the instructions that may not complete, each by what it can stop with. -/
theorem onlyCsrAndMemoryInstructionsStop : Obligations.OnlyCsrAndMemoryInstructionsStop := by
  intro i s
  obtain ⟨t, ht⟩ | ⟨rd, n, rfl⟩ | ⟨n, rs1, rfl⟩ | ⟨rd, rs1, imm, rfl⟩ | ⟨rs2, rs1, imm, rfl⟩ := exec_completes_or i s
  · rw [ht]
    exact ⟨nofun, nofun⟩
  · exact ⟨fun f h => .inl ⟨rd, n, rfl, State.csrRead_fault (exec_csrr_stops.1 f h)⟩,
      fun r h => absurd h (exec_csrr_stops.2 r)⟩
  · exact ⟨fun f h => .inr (.inl ⟨n, rs1, rfl, State.csrWrite_fault (exec_csrw_stops.1 f h)⟩),
      fun r h => absurd h (exec_csrw_stops.2 r)⟩
  · exact ⟨fun f h => .inr (.inr ⟨rd, rs1, imm, .inl rfl, checkData_error (exec_lw_stops.1 f h)⟩),
      fun r h => absurd h (exec_lw_stops.2 r)⟩
  · refine ⟨fun f h => .inr (.inr ⟨rs2, rs1, imm, .inr rfl, checkData_error (exec_sw_stops.1 f h)⟩), fun r h => ?_⟩
    obtain ⟨hr, hp⟩ := exec_sw_stops.2 r h
    refine ⟨rs2, rs1, imm, rfl, hr, fun hsmc => ?_⟩
    rw [hsmc] at hp
    cases hp

/-- A step that is refused is an instruction that is. -/
theorem step_refused {s : State} {r : Refusal} (h : step s = .refused r) : ∃ i, exec i s = .refused r := by
  unfold step at h
  split at h
  · cases h
  · split at h
    · cases h
    · next i _ =>
      refine ⟨i, ?_⟩
      cases hexec : exec i s <;> rw [hexec] at h <;> cases h
      rfl

theorem step_smc {s t : State} (h : step s = .next t) : t.smc = s.smc := by
  obtain ⟨w, i, u, -, -, hexec, rfl⟩ := step_next h
  rw [u.managerTurn_smc, (exec_effect hexec).sameSetting.smc]

/-- Settles O52: no step is refused under `coherent`, and every step keeps the policy. -/
theorem coherentRunsAreNeverRefused : Obligations.CoherentRunsAreNeverRefused := by
  intro k
  induction k with
  | zero => exact fun s r _ h => by cases h
  | succ k ih =>
    intro s r hsmc h
    cases hstep : step s with
    | next t =>
      rw [run_succ_of_step hstep] at h
      exact ih t r ((step_smc hstep).trans hsmc) h
    | fault f => simp [Host.Core.run, show core.step s = _ from hstep] at h
    | refused q =>
      obtain ⟨i, hexec⟩ := step_refused hstep
      obtain ⟨_, _, _, _, _, hne⟩ := (onlyCsrAndMemoryInstructionsStop i s).2 q hexec
      exact hne hsmc

end Sys2Proof.Machine
end

section
/-! PROOFS. The invariant (10_state.md section 7, R57, R59, R142): canonical memory, the FIFO an end of the output, the
core's identity, an even pc under TinyRV2. Each is kept by every effect, and by the manager's turn. -/

namespace Sys2Proof.Machine

/-! Even addresses. -/

theorem even_add {n : Nat} {x y : BitVec n} (hx : x.getLsbD 0 = false) (hy : y.getLsbD 0 = false) :
    (x + y).getLsbD 0 = false := by
  cases n with
  | zero => exact BitVec.getLsbD_of_ge _ _ (Nat.le_refl _)
  | succ n => rw [BitVec.getLsbD_add (Nat.succ_pos n), hx, hy, BitVec.carry_zero]; rfl

theorem even_next {pc : Word} (h : pc.getLsbD 0 = false) : (pc + 4#32).getLsbD 0 = false :=
  even_add h rfl

/-- R59: a well-formed JAL's offset is even as a word. -/
theorem jumpValue_even {off : BitVec 21} (h : off.getLsbD 0 = false) : (jumpValue off).getLsbD 0 = false :=
  (jumpValue_getLsbD off (by decide)).trans h

/-- R57: a well-formed branch's offset is even as a word. -/
theorem branchValue_even {off : BitVec 13} (h : off.getLsbD 0 = false) : (branchValue off).getLsbD 0 = false :=
  (branchValue_getLsbD off (by decide)).trans h

theorem branchOffset_even {i : Instr} {off : BitVec 13} (hb : branchOffset i = some off) (hwf : i.wellFormed = true) :
    off.getLsbD 0 = false := by
  rw [← evenOffset_iff]
  cases i with
  | beq | bne | blt | bge | bltu | bgeu =>
    cases hb
    exact hwf
  | _ => cases hb

theorem clearBit0_even (t : Word) : (clearBit0 t).getLsbD 0 = false := by
  rw [clearBit0_getLsbD, decide_eq_false (not_not_intro rfl), Bool.and_false]

/-! The effects, clause by clause. -/

section Effects
variable {i : Instr} {s t : State}

/-- R23: a store that completes lies inside the address space. -/
theorem Effect.mem_wf (h : Effect i s t) (hs : s.mem.wf = true) : t.mem.wf = true := by
  cases h with
  | stored rs2 rs1 imm _ ha hr => exact Memory.writeWord_wf _ hs (aligned_inRange_bound ha hr)
  | _ => simpa using hs

/-- R19: what is enqueued is sent. -/
theorem Effect.p2m_suffix (h : Effect i s t) (hs : s.p2m <:+ s.sent) : t.p2m <:+ t.sent := by
  obtain ⟨ws, hp2m, hsent⟩ := h.p2m_sent_append
  obtain ⟨taken, e⟩ := hs
  exact ⟨taken, by rw [hp2m, hsent, ← e, List.append_assoc]⟩

/-- R57, R59, R142: under TinyRV2 no instruction makes an odd pc. -/
theorem Effect.pc_even (h : Effect i s t) (hwf : i.wellFormed = true) (hv : s.version = .tinyRV2)
    (hs : s.pc.getLsbD 0 = false) : t.pc.getLsbD 0 = false := by
  cases h with
  | held => exact hs
  | wroteBack | dequeued | enqueued | wroteStats | stored => exact even_next hs
  | jal rd off e =>
    subst e
    exact even_add hs (jumpValue_even ((evenOffset_iff off).mp hwf))
  | jalr => exact clearBit0_even _
  | jr rs1 =>
    rw [State.setPc_pc, hv]
    exact clearBit0_even _
  | branched off taken hb =>
    cases taken with
    | false => exact even_next hs
    | true => exact even_add hs (branchValue_even (branchOffset_even hb hwf))

theorem Effect.inv (h : Effect i s t) (hwf : i.wellFormed = true) (hs : Inv s) : Inv t where
  mem := h.mem_wf hs.mem
  fifo := h.p2m_suffix hs.fifo
  ids := by
    rw [h.sameSetting.coreId, h.sameSetting.numCores]
    exact hs.ids
  even hv := by
    rw [h.sameSetting.version] at hv
    exact h.pc_even hwf hv (hs.even hv)

end Effects

/-- The manager takes words from the head of proc2mngr only. -/
theorem inv_managerTurn {s : State} (hs : Inv s) : Inv s.managerTurn where
  mem := by simpa using hs.mem
  fifo := by
    rw [s.managerTurn_sent]
    exact s.managerTurn_p2m.trans hs.fifo
  ids := by simpa using hs.ids
  even := by simpa using hs.even

/-- Settles O54: the effect of a decoded, so well-formed, instruction, and then the manager's turn. -/
theorem everyStepKeepsTheInvariant : Obligations.EveryStepKeepsTheInvariant := by
  intro s t hs hstep
  obtain ⟨w, i, u, -, hdecode, hexec, rfl⟩ := step_next hstep
  exact inv_managerTurn ((exec_effect hexec).inv (decodeWord_wellFormed hdecode) hs)

end Sys2Proof.Machine
end

section
/-! PROOFS. Changes of the state that an instruction does not see (00_scope.md section 1, 10_state.md section 5): one
that leaves registers, pc, memory and policy alone commutes with every instruction but the CSR accesses and JR. The ISA
version and stats_en are two such parts of the state. -/

namespace Sys2Proof.Machine

/-- The outcome with its next state changed, a stop as it is. -/
def mapNext (f : State → State) : Host.Outcome State Fault Refusal → Host.Outcome State Fault Refusal
  | .next s => .next (f s)
  | .fault e => .fault e
  | .refused r => .refused r

/-- The change touches neither registers, pc, memory nor the store policy, and commutes with every write of those and
with the manager's turn. -/
structure Transparent (f : State → State) : Prop where
  readReg : ∀ s r, (f s).readReg r = s.readReg r
  pc : ∀ s, (f s).pc = s.pc
  mem : ∀ s, (f s).mem = s.mem
  smc : ∀ s, (f s).smc = s.smc
  setPc : ∀ s p, (f s).setPc p = f (s.setPc p)
  writeReg : ∀ s r v, (f s).writeReg r v = f (s.writeReg r v)
  setMem : ∀ s m, ({ f s with mem := m } : State) = f { s with mem := m }
  managerTurn : ∀ s, (f s).managerTurn = f s.managerTurn

section Commute
variable {f : State → State} (hf : Transparent f) (s : State)
include hf

theorem Transparent.fetch : (f s).fetch = s.fetch := State.fetch_congr (hf.pc s) (hf.mem s)

theorem Transparent.effectiveAddress (rs1 : RegNum) (imm : BitVec 12) :
    (f s).effectiveAddress rs1 imm = s.effectiveAddress rs1 imm := by
  rw [State.effectiveAddress, hf.readReg, State.effectiveAddress]

theorem Transparent.relative (off : Word) : (f s).relative off = s.relative off := by
  rw [State.relative, hf.pc, State.relative]

theorem Transparent.advance : (f s).advance = f s.advance := by
  rw [State.advance_eq, State.advance_eq, hf.pc, hf.setPc]

theorem Transparent.writeBack (rd : RegNum) (v : Word) :
    (f s).writeBack rd v = mapNext f (s.writeBack rd v) := by
  rw [State.writeBack, hf.writeReg, hf.advance]
  rfl

theorem Transparent.linkTo (rd : RegNum) (p : Word) : (f s).linkTo rd p = mapNext f (s.linkTo rd p) := by
  rw [State.linkTo, State.nextPc_eq, hf.pc, hf.writeReg, hf.setPc]
  rfl

theorem Transparent.branchTo (taken : Bool) (p : Word) : (f s).branchTo taken p = mapNext f (s.branchTo taken p) := by
  cases taken with
  | false => exact congrArg Host.Outcome.next (hf.advance s)
  | true => exact congrArg Host.Outcome.next (hf.setPc s p)

theorem Transparent.exec_lw (rd rs1 : RegNum) (imm : BitVec 12) :
    exec (.lw rd rs1 imm) (f s) = mapNext f (exec (.lw rd rs1 imm) s) := by
  simp only [exec, execLw, State.loadWord, hf.effectiveAddress, hf.mem, hf.writeBack]
  cases checkData (s.effectiveAddress rs1 imm) <;> rfl

theorem Transparent.exec_sw (rs2 rs1 : RegNum) (imm : BitVec 12) :
    exec (.sw rs2 rs1 imm) (f s) = mapNext f (exec (.sw rs2 rs1 imm) s) := by
  simp only [exec, execSw, State.storeWord, hf.setMem]
  simp only [hf.effectiveAddress, hf.readReg, hf.mem, hf.smc]
  cases checkData (s.effectiveAddress rs1 imm) with
  | error => rfl
  | ok =>
    cases refusesStore s.smc (s.effectiveAddress rs1 imm) with
    | false => exact congrArg Host.Outcome.next (hf.advance _)
    | true => rfl

theorem Transparent.afterTurn_comm (o : Host.Outcome State Fault Refusal) :
    afterTurn (mapNext f o) = mapNext f (afterTurn o) := by
  cases o with
  | next t => exact congrArg Host.Outcome.next (hf.managerTurn t)
  | _ => rfl

/-- A transparent change commutes with every instruction that is no CSR access and no JR. -/
theorem Transparent.exec_comm {i : Instr} (hcsrr : ∀ rd n, i ≠ .csrr rd n) (hcsrw : ∀ n rs1, i ≠ .csrw n rs1)
    (hjr : ∀ rs1, i ≠ .jr rs1) : exec i (f s) = mapNext f (exec i s) := by
  cases i with
  | csrr rd n => exact absurd rfl (hcsrr rd n)
  | csrw n rs1 => exact absurd rfl (hcsrw n rs1)
  | jr rs1 => exact absurd rfl (hjr rs1)
  | lw rd rs1 imm => exact hf.exec_lw s rd rs1 imm
  | sw rs2 rs1 imm => exact hf.exec_sw s rs2 rs1 imm
  | jal => simp only [exec_jal, hf.relative, hf.linkTo]
  | jalr => simp only [exec_jalr, hf.readReg, hf.linkTo]
  | beq | bne | blt | bge | bltu | bgeu =>
    simp only [exec_beq, exec_bne, exec_blt, exec_bge, exec_bltu, exec_bgeu, hf.readReg, hf.relative, hf.branchTo]
  | add | sub | and | or | xor | slt | sltu | sra | srl | sll | mul =>
    simp only [exec_add, exec_sub, exec_and, exec_or, exec_xor, exec_slt, exec_sltu, exec_sra, exec_srl, exec_sll,
      exec_mul, hf.readReg, hf.writeBack]
  | addi | andi | ori | xori | slti | sltiu | srai | srli | slli | lui | auipc =>
    simp only [exec_addi, exec_andi, exec_ori, exec_xori, exec_slti, exec_sltiu, exec_srai, exec_srli, exec_slli,
      exec_lui, exec_auipc, hf.readReg, hf.pc, hf.writeBack]

end Commute

/-! stats_en. -/

/-- The state with another value in stats_en. -/
def State.withStatsEn (x : Word) (s : State) : State := { s with statsEn := x }

theorem transparent_withStatsEn (x : Word) : Transparent (State.withStatsEn x) where
  readReg _ _ := rfl
  pc _ := rfl
  mem _ := rfl
  smc _ := rfl
  setPc _ _ := rfl
  writeReg s r v := by
    unfold State.writeReg
    split <;> rfl
  setMem _ _ := rfl
  managerTurn s := by
    cases h : s.manager with
    | nil => rw [s.managerTurn_nil h, (s.withStatsEn x).managerTurn_nil h]
    | cons t rest => rw [s.managerTurn_cons h, (s.withStatsEn x).managerTurn_cons h]; rfl

/-- A CSRR of another CSR does not see stats_en. -/
theorem exec_csrr_withStatsEn (x : Word) (s : State) (rd : RegNum) {n : CsrNum} (hn : n ≠ 0x7c1#12) :
    exec (.csrr rd n) (s.withStatsEn x) = mapNext (State.withStatsEn x) (exec (.csrr rd n) s) := by
  have hf := transparent_withStatsEn x
  obtain ⟨rfl, -⟩ | ⟨rfl, -⟩ | ⟨rfl, -⟩ | ⟨rfl, -⟩ | ⟨rfl, -⟩ | ⟨-, -, -, -, -, hnone⟩ := csrOfNumber_cases n
  · rfl
  · cases hm2p : s.m2p with
    | nil =>
      rw [exec_csrr_mngr2proc_empty rd hm2p, exec_csrr_mngr2proc_empty (s := s.withStatsEn x) rd hm2p]
      rfl
    | cons w rest =>
      rw [exec_csrr_mngr2proc rd hm2p, exec_csrr_mngr2proc (s := s.withStatsEn x) rd hm2p]
      exact hf.writeBack { s with m2p := rest } rd w
  · exact hf.writeBack s rd s.coreId
  · exact hf.writeBack s rd s.numCores
  · exact absurd rfl hn
  · rw [exec_csrr_noCsr rd hnone, exec_csrr_noCsr rd hnone]
    rfl

/-- A CSRW writes the same whatever stats_en held before; a CSRW of stats_en leaves its own value there. -/
theorem exec_csrw_withStatsEn (x : Word) (s : State) (n : CsrNum) (rs1 : RegNum) :
    ∃ y, exec (.csrw n rs1) (s.withStatsEn x) = mapNext (State.withStatsEn y) (exec (.csrw n rs1) s) := by
  obtain ⟨rfl, -⟩ | ⟨rfl, -⟩ | ⟨rfl, -⟩ | ⟨rfl, -⟩ | ⟨rfl, -⟩ | ⟨-, -, -, -, -, hnone⟩ := csrOfNumber_cases n
  · refine ⟨x, ?_⟩
    cases hready : s.p2mReady with
    | false =>
      rw [exec_csrw_proc2mngr_notReady rs1 hready, exec_csrw_proc2mngr_notReady (s := s.withStatsEn x) rs1 hready]
      rfl
    | true =>
      rw [exec_csrw_proc2mngr rs1 hready, exec_csrw_proc2mngr (s := s.withStatsEn x) rs1 hready]
      rfl
  · exact ⟨x, rfl⟩
  · exact ⟨x, rfl⟩
  · exact ⟨x, rfl⟩
  · exact ⟨s.readReg rs1, rfl⟩
  · refine ⟨x, ?_⟩
    rw [exec_csrw_noCsr rs1 hnone, exec_csrw_noCsr rs1 hnone]
    rfl

/-- An instruction that does not read stats_en answers the same whatever it holds, stats_en apart. -/
theorem exec_withStatsEn (x : Word) (s : State) {i : Instr} (hi : ∀ rd, i ≠ .csrr rd 0x7c1#12) :
    ∃ y, exec i (s.withStatsEn x) = mapNext (State.withStatsEn y) (exec i s) := by
  cases i with
  | csrr rd n => exact ⟨x, exec_csrr_withStatsEn x s rd fun hn => hi rd (by rw [hn])⟩
  | csrw n rs1 => exact exec_csrw_withStatsEn x s n rs1
  | jr rs1 =>
    refine ⟨x, ?_⟩
    cases hv : s.version with
    | tinyRV1 => rw [exec_jr_tinyRV1 rs1 hv, exec_jr_tinyRV1 (s := s.withStatsEn x) rs1 hv]; rfl
    | tinyRV2 => rw [exec_jr_tinyRV2 rs1 hv, exec_jr_tinyRV2 (s := s.withStatsEn x) rs1 hv]; rfl
  | _ => exact ⟨x, (transparent_withStatsEn x).exec_comm s nofun nofun nofun⟩

/-- A step that does not read stats_en answers the same whatever it holds, stats_en apart. -/
theorem step_withStatsEn (x : Word) {s : State}
    (hs : ∀ w rd, s.fetch = .ok w → decodeWord s.version w ≠ .ok (.csrr rd 0x7c1#12)) :
    ∃ y, step (s.withStatsEn x) = mapNext (State.withStatsEn y) (step s) := by
  have hfetch := (transparent_withStatsEn x).fetch s
  cases hw : s.fetch with
  | error f => exact ⟨x, by rw [step_of_fetch_error hw, step_of_fetch_error (hfetch.trans hw)]; rfl⟩
  | ok w =>
    cases hi : decodeWord s.version w with
    | error e =>
      refine ⟨x, ?_⟩
      rw [step_of_rejected hw hi, step_of_rejected (s := s.withStatsEn x) (hfetch.trans hw) hi]
      rfl
    | ok i =>
      obtain ⟨y, hexec⟩ := exec_withStatsEn x s (i := i) fun rd e => hs w rd hw (e ▸ hi)
      refine ⟨y, ?_⟩
      rw [step_of_decoded hw hi, step_of_decoded (s := s.withStatsEn x) (hfetch.trans hw) hi, hexec,
        (transparent_withStatsEn y).afterTurn_comm]

/-- Settles O56: the outcome is that of the step with stats_en as it was, its next state apart from stats_en. -/
theorem statsEnAffectsNothingElse : Obligations.StatsEnAffectsNothingElse := by
  intro s x hs
  obtain ⟨y, hstep⟩ := step_withStatsEn x hs
  refine ⟨fun t h => ⟨y, ?_⟩, fun f h => ?_, fun r h => ?_⟩
  all_goals exact hstep.trans (by rw [h]; rfl)

/-! The version. -/

/-- The state with TinyRV2 as its version. -/
def State.underTinyRV2 (s : State) : State := { s with version := .tinyRV2 }

theorem transparent_underTinyRV2 : Transparent State.underTinyRV2 where
  readReg _ _ := rfl
  pc _ := rfl
  mem _ := rfl
  smc _ := rfl
  setPc _ _ := rfl
  writeReg s r v := by
    unfold State.writeReg
    split <;> rfl
  setMem _ _ := rfl
  managerTurn s := by
    cases h : s.manager with
    | nil => rw [s.managerTurn_nil h, s.underTinyRV2.managerTurn_nil h]
    | cons t rest => rw [s.managerTurn_cons h, s.underTinyRV2.managerTurn_cons h]; rfl

/-- A multiple of four is even. -/
theorem even_of_aligned {a : Word} (h : aligned a = true) : a.getLsbD 0 = false := by
  rw [aligned_iff] at h
  simp only [BitVec.getLsbD, Nat.testBit_zero, decide_eq_false_iff_not]
  omega

theorem asTinyRV2_of_ne_jr {i : Instr} (h : ∀ rs1, i ≠ .jr rs1) : i.asTinyRV2 = i := by
  cases i with
  | jr rs1 => exact absurd rfl (h rs1)
  | _ => rfl

/-- TinyRV1 has no CSR access (R1), so the version is seen by its JR alone. -/
theorem exec_underTinyRV2 {i : Instr} (s : State) (hi : i.inVersion .tinyRV1 = true) (hjr : ∀ rs1, i ≠ .jr rs1) :
    exec i s.underTinyRV2 = mapNext State.underTinyRV2 (exec i s) := by
  refine transparent_underTinyRV2.exec_comm s (fun rd n e => ?_) (fun n rs1 e => ?_) hjr
  · rw [e] at hi
    cases hi
  · rw [e] at hi
    cases hi

/-- TinyRV2's reading of a TinyRV1 instruction does the same, when the next address is one that can be fetched: JR's
two meanings differ on an odd target only. -/
theorem exec_asTinyRV2 {i : Instr} {s t : State} (hv : s.version = .tinyRV1) (hi : i.inVersion .tinyRV1 = true)
    (hexec : exec i s = .next t) (ht : aligned t.pc = true) :
    exec i.asTinyRV2 s.underTinyRV2 = .next t.underTinyRV2 := by
  by_cases hjr : ∃ rs1, i = .jr rs1
  · obtain ⟨rs1, rfl⟩ := hjr
    rw [exec_jr_tinyRV1 rs1 hv] at hexec
    cases hexec
    have htarget : clearBit0 (s.underTinyRV2.readReg rs1) = s.readReg rs1 := clearBit0_of_even (even_of_aligned ht)
    rw [Instr.asTinyRV2, exec_jalr_zero_zero, htarget]
    rfl
  · have hne : ∀ rs1, i ≠ .jr rs1 := not_exists.mp hjr
    rw [asTinyRV2_of_ne_jr hne, exec_underTinyRV2 s hi hne, hexec]
    rfl

/-- A TinyRV1 step after which a further step is possible is a TinyRV2 step. -/
theorem step_underTinyRV2 {s t u : State} (hv : s.version = .tinyRV1) (hst : step s = .next t) (htu : step t = .next u) :
    step s.underTinyRV2 = .next t.underTinyRV2 := by
  obtain ⟨w, i, v, hw, hi, hexec, rfl⟩ := step_next hst
  obtain ⟨w', -, -, hw', -⟩ := step_next htu
  obtain ⟨haligned, -⟩ := State.fetch_ok hw'
  rw [v.managerTurn_pc] at haligned
  rw [hv] at hi
  rw [step_of_decoded (s := s.underTinyRV2) ((transparent_underTinyRV2.fetch s).trans hw)
    (decodeWord_tinyRV2_of_tinyRV1 hi), exec_asTinyRV2 hv (decodeWord_inVersion hi) hexec haligned]
  exact congrArg Host.Outcome.next (transparent_underTinyRV2.managerTurn v)

theorem step_version {s t : State} (h : step s = .next t) : t.version = s.version := by
  obtain ⟨w, i, u, -, -, hexec, rfl⟩ := step_next h
  rw [u.managerTurn_version, (exec_effect hexec).sameSetting.version]

/-- A run that can go on after its end can go on from its start. -/
theorem exists_step_of_run {k : Nat} {s t u : State} (hrun : core.run k s = .next t) (htu : step t = .next u) :
    ∃ v, step s = .next v := by
  cases k with
  | zero =>
    cases hrun
    exact ⟨u, htu⟩
  | succ k =>
    obtain ⟨v, hv, -⟩ := run_succ_next hrun
    exact ⟨v, hv⟩

/-- Settles O55: by induction on the length of the run; after each step a further one is possible. -/
theorem tinyRV1RunsAreTinyRV2Runs : Obligations.TinyRV1RunsAreTinyRV2Runs := by
  intro k
  induction k with
  | zero =>
    intro s t u _ hrun _
    cases hrun
    rfl
  | succ k ih =>
    intro s t u hv hrun htu
    obtain ⟨v, hsv, hrest⟩ := run_succ_next hrun
    obtain ⟨x, hvx⟩ := exists_step_of_run hrest htu
    exact (run_succ_of_step (step_underTinyRV2 hv hsv hvx)).trans (ih v t u ((step_version hsv).trans hv) hrest htu)

end Sys2Proof.Machine
end

section
/-! PROOFS. How a run ends (60_exceptions.md sections 1 and 12): the steps before END_OF_RUN, and then one of the four
ends, each in the state that was reached. -/

namespace Sys2Proof.Machine

/-- END_OF_RUN holds in none of the states before the `j`th. -/
def QuietBefore (endOfRun : State → Bool) (j : Nat) (s : State) : Prop :=
  ∀ (m : Nat) (u : State), m < j → core.run m s = .next u → endOfRun u = false

/-- The end of a run in the state `t` with `n` steps left. -/
inductive EndsAt (endOfRun : State → Bool) (t : State) : Nat → RunEnd → Prop where
  | ended {n : Nat} (h : endOfRun t = true) : EndsAt endOfRun t n (.ended t)
  | unfinished (h : endOfRun t = false) : EndsAt endOfRun t 0 (.unfinished t)
  | faulted {n : Nat} {f : Fault} (h : endOfRun t = false) (hstep : step t = .fault f) :
      EndsAt endOfRun t (n + 1) (.faulted f t)
  | refused {n : Nat} {r : Refusal} (h : endOfRun t = false) (hstep : step t = .refused r) :
      EndsAt endOfRun t (n + 1) (.refused r t)

section Runs
variable {endOfRun : State → Bool} {s t u : State} {j k n : Nat} {e : RunEnd}

theorem EndsAt.runUntil_eq (h : EndsAt endOfRun t n e) : runUntil endOfRun n t = e := by
  cases h with
  | ended h => exact runUntil_of_end h n
  | unfinished h => simp only [runUntil, h, Bool.false_eq_true, if_false]
  | faulted h hstep => rw [runUntil_succ h, hstep]
  | refused h hstep => rw [runUntil_succ h, hstep]

theorem quietBefore_zero : QuietBefore endOfRun 0 s := fun _ _ hm => absurd hm (Nat.not_lt_zero _)

/-- The states before the next one are this one and those that the step leads to. -/
theorem quietBefore_succ (hstep : step s = .next u) :
    QuietBefore endOfRun (j + 1) s ↔ endOfRun s = false ∧ QuietBefore endOfRun j u := by
  constructor
  · intro h
    refine ⟨h 0 s (Nat.succ_pos j) rfl, fun m v hm hrun => h (m + 1) v (Nat.succ_lt_succ hm) ?_⟩
    rw [run_succ_of_step hstep, hrun]
  · rintro ⟨hs, h⟩ m v hm hrun
    cases m with
    | zero =>
      cases hrun
      exact hs
    | succ m =>
      rw [run_succ_of_step hstep] at hrun
      exact h m v (Nat.lt_of_succ_lt_succ hm) hrun

/-- With END_OF_RUN in no state before it, a state that a run reaches is where the rest of the run goes on. -/
theorem runUntil_add (hrun : core.run j s = .next t) (hquiet : QuietBefore endOfRun j s) (n : Nat) :
    runUntil endOfRun (j + n) s = runUntil endOfRun n t := by
  induction j generalizing s with
  | zero =>
    cases hrun
    rw [Nat.zero_add]
  | succ j ih =>
    obtain ⟨u, hstep, hrest⟩ := run_succ_next hrun
    obtain ⟨hs, hquiet⟩ := (quietBefore_succ hstep).mp hquiet
    rw [Nat.add_right_comm, runUntil_succ hs, hstep]
    exact ih hrest hquiet

/-- Every run takes some steps before END_OF_RUN and then ends where it stands. -/
theorem exists_endsAt (endOfRun : State → Bool) (k : Nat) (s : State) :
    ∃ j n t, k = j + n ∧ core.run j s = .next t ∧ QuietBefore endOfRun j s ∧
      EndsAt endOfRun t n (runUntil endOfRun k s) := by
  induction k generalizing s with
  | zero =>
    refine ⟨0, 0, s, rfl, rfl, quietBefore_zero, ?_⟩
    cases hs : endOfRun s with
    | true => exact runUntil_of_end hs 0 ▸ .ended hs
    | false => exact (EndsAt.unfinished hs).runUntil_eq ▸ .unfinished hs
  | succ k ih =>
    cases hs : endOfRun s with
    | true => exact ⟨0, k + 1, s, (Nat.zero_add _).symm, rfl, quietBefore_zero, runUntil_of_end hs _ ▸ .ended hs⟩
    | false =>
      rw [runUntil_succ hs]
      cases hstep : step s with
      | fault f => exact ⟨0, k + 1, s, (Nat.zero_add _).symm, rfl, quietBefore_zero, .faulted hs hstep⟩
      | refused r => exact ⟨0, k + 1, s, (Nat.zero_add _).symm, rfl, quietBefore_zero, .refused hs hstep⟩
      | next u =>
        obtain ⟨j, n, t, hk, hrun, hquiet, hend⟩ := ih u
        refine ⟨j + 1, n, t, by omega, ?_, (quietBefore_succ hstep).mpr ⟨hs, hquiet⟩, hend⟩
        rw [run_succ_of_step hstep, hrun]

/-- How a run ends, exactly. -/
theorem runUntil_eq_iff : runUntil endOfRun k s = e ↔
    ∃ j n t, k = j + n ∧ core.run j s = .next t ∧ QuietBefore endOfRun j s ∧ EndsAt endOfRun t n e := by
  constructor
  · rintro rfl
    exact exists_endsAt endOfRun k s
  · rintro ⟨j, n, t, rfl, hrun, hquiet, hend⟩
    rw [runUntil_add hrun hquiet, hend.runUntil_eq]

/-- END_OF_RUN holds in no state up to the one reached if it holds neither there nor before. -/
theorem quietUpTo_iff (hrun : core.run j s = .next t) :
    (∀ (m : Nat) (u : State), m ≤ j → core.run m s = .next u → endOfRun u = false) ↔
      endOfRun t = false ∧ QuietBefore endOfRun j s := by
  constructor
  · exact fun h => ⟨h j t (Nat.le_refl j) hrun, fun m u hm => h m u (Nat.le_of_lt hm)⟩
  · rintro ⟨ht, hquiet⟩ m u hm hrun'
    obtain hlt | rfl := Nat.lt_or_eq_of_le hm
    · exact hquiet m u hlt hrun'
    · rw [hrun] at hrun'
      cases hrun'
      exact ht

/-- A state that is reached with steps left, END_OF_RUN in no state up to it. -/
theorem reachedWithin_iff :
    (∃ j, j < k ∧ core.run j s = .next t ∧
      ∀ (m : Nat) (u : State), m ≤ j → core.run m s = .next u → endOfRun u = false) ↔
    endOfRun t = false ∧ ∃ j n, k = j + (n + 1) ∧ core.run j s = .next t ∧ QuietBefore endOfRun j s := by
  constructor
  · rintro ⟨j, hj, hrun, hupTo⟩
    obtain ⟨ht, hquiet⟩ := (quietUpTo_iff hrun).mp hupTo
    exact ⟨ht, j, k - j - 1, by omega, hrun, hquiet⟩
  · rintro ⟨ht, j, n, hk, hrun, hquiet⟩
    exact ⟨j, by omega, hrun, (quietUpTo_iff hrun).mpr ⟨ht, hquiet⟩⟩

end Runs

/-- Settles O57: each of the four ends by what it needs in the state reached. -/
theorem faultedRunsStopBeforeTheFaultingStep : Obligations.FaultedRunsStopBeforeTheFaultingStep := by
  intro endOfRun k s t
  refine ⟨fun f => ?_, fun r => ?_, ?_, ?_⟩
  all_goals rw [runUntil_eq_iff]
  · rw [reachedWithin_iff]
    constructor
    · rintro ⟨j, n, t', hk, hrun, hquiet, hend⟩
      cases hend with
      | faulted ht hstep => exact ⟨hstep, ht, j, _, hk, hrun, hquiet⟩
    · rintro ⟨hstep, ht, j, n, hk, hrun, hquiet⟩
      exact ⟨j, n + 1, t, hk, hrun, hquiet, .faulted ht hstep⟩
  · rw [reachedWithin_iff]
    constructor
    · rintro ⟨j, n, t', hk, hrun, hquiet, hend⟩
      cases hend with
      | refused ht hstep => exact ⟨hstep, ht, j, _, hk, hrun, hquiet⟩
    · rintro ⟨hstep, ht, j, n, hk, hrun, hquiet⟩
      exact ⟨j, n + 1, t, hk, hrun, hquiet, .refused ht hstep⟩
  · constructor
    · rintro ⟨j, n, t', hk, hrun, hquiet, hend⟩
      cases hend with
      | ended ht => exact ⟨ht, j, by omega, hrun, hquiet⟩
    · rintro ⟨ht, j, hj, hrun, hquiet⟩
      exact ⟨j, k - j, t, by omega, hrun, hquiet, .ended ht⟩
  · constructor
    · rintro ⟨j, n, t', hk, hrun, hquiet, hend⟩
      cases hend with
      | unfinished ht =>
        obtain rfl : k = j := hk
        exact ⟨hrun, (quietUpTo_iff hrun).mpr ⟨ht, hquiet⟩⟩
    · rintro ⟨hrun, hupTo⟩
      obtain ⟨ht, hquiet⟩ := (quietUpTo_iff hrun).mp hupTo
      exact ⟨k, 0, t, rfl, hrun, hquiet, .unfinished ht⟩

end Sys2Proof.Machine
end
